-- ==== Sys2Proof/Word.lean ====
section
/-! DEFINITION. The two word sizes of the engine (spec/00_scope.md rule R11): a byte is 8 bits, a word is 32 bits,
bits are numbered from 0 (least significant), and every value is unsigned. -/

namespace Sys2Proof

/-- A byte (R11). -/
abbrev Byte := BitVec 8

/-- A 32-bit word: a device address, a CRC value, an identification register value (R11). -/
abbrev Word := BitVec 32

end Sys2Proof
end

