-- ==== Sys2Proof/Config.lean ====
section
/-! DEFINITION. What is fixed for one build of the engine (the record CFG of spec/00_scope.md rule R6), the constants the
source itself fixes, and the free values: answers of collaborators and contents the spec leaves to any value
(spec/10_state.md rules R24, R31, spec/93_implementation_defined.md). -/

namespace Sys2Proof

/-- The status a flash primitive returns (R12, R31): OK or not OK. -/
inductive Status where
  | ok
  | err
  deriving DecidableEq, Repr, Inhabited

/-- What an unknown command code is answered with (R6 UNKNOWN_CMD_POLICY, R131, R132). -/
inductive UnknownPolicy where
  | silent
  | nack
  deriving DecidableEq, Repr

/-- Which accumulator function CRC_STEP is (R6, OPEN). `stm32` is the default of R7. `other k` is any other function:
`Config.otherCrcStep k`, of which nothing is known. A name for the function stands here, and not the function, because
the configuration is held in State and State is plain data (notes/assumptions/11.md). -/
inductive CrcAlg where
  | stm32
  | other (k : Nat)
  deriving DecidableEq, Repr

/-- The configuration record CFG (R6): read-only, fixed at build time (spec/10_state.md rule R29). The fields R6 gives a
fixed value (ACK, NACK, MASS_ERASE, ID_MASK, MIN_FRAME_LEN) are the constants `Config.ack` and so on below. -/
structure Cfg where
  /-- BUF_CAP, the capacity of the frame buffer in bytes (D2). -/
  bufCap : Nat
  /-- SRAM_BASE, first address of the SRAM window (D16). -/
  sramBase : Word
  /-- SRAM_END, last address of the SRAM window, inclusive. -/
  sramEnd : Word
  /-- FLASH_BASE, first address of the flash window. -/
  flashBase : Word
  /-- FLASH_END, last address of the flash window, inclusive. -/
  flashEnd : Word
  /-- MAX_PAGES, the device's page count (D17). -/
  maxPages : Nat
  /-- VERSION[0], protocol_id (D12). -/
  version0 : Byte
  /-- VERSION[1], major. -/
  version1 : Byte
  /-- VERSION[2], minor. -/
  version2 : Byte
  /-- VERSION[3], patch. -/
  version3 : Byte
  /-- ST_ADDR_VALID (D11). -/
  stAddrValid : Byte
  /-- ST_ADDR_INVALID. -/
  stAddrInvalid : Byte
  /-- ST_WRITE_OK. -/
  stWriteOk : Byte
  /-- ST_WRITE_FAIL. -/
  stWriteFail : Byte
  /-- ST_ERASE_INVALID. -/
  stEraseInvalid : Byte
  /-- ST_ERASE_FAIL. -/
  stEraseFail : Byte
  /-- ST_ERASE_OK. -/
  stEraseOk : Byte
  /-- STUB_REPLY[0x13], GetRdpStatus (D14). -/
  stubGetRdpStatus : Byte
  /-- STUB_REPLY[0x18], MemRead. -/
  stubMemRead : Byte
  /-- STUB_REPLY[0x19], ReadSectorStatus. -/
  stubReadSectorStatus : Byte
  /-- STUB_REPLY[0x20], OtpRead. -/
  stubOtpRead : Byte
  /-- UNKNOWN_CMD_POLICY (D10). -/
  unknownPolicy : UnknownPolicy
  /-- CRC_INIT (D8). -/
  crcInit : Word
  /-- CRC_STEP, by name (D8). -/
  crcAlg : CrcAlg
  /-- ERASE_NO_ERROR, the "no erroring sector" value (D19). -/
  eraseNoError : Word
  /-- RX_LEN_MAY_FAIL: the length-byte receive has a finite timeout (D4). -/
  rxLenMayFail : Bool
  /-- RX_BODY_MAY_FAIL: the body receive has a finite timeout (D4). -/
  rxBodyMayFail : Bool
  deriving DecidableEq, Repr

/-- The example configuration EX of spec/95_test_vectors.md section 0.1. It is the configuration of `State.reset` and of the
tests, and no statement rests on one of its OPEN values (DESIGN CHOICE, notes/assumptions/1.md). -/
def Cfg.sample : Cfg where
  bufCap := 256
  sramBase := 0x20000000
  sramEnd := 0x20004FFF
  flashBase := 0x08000000
  flashEnd := 0x0800FFFF
  maxPages := 64
  version0 := 0x01
  version1 := 0x01
  version2 := 0x00
  version3 := 0x00
  stAddrValid := 0x01
  stAddrInvalid := 0x00
  stWriteOk := 0x01
  stWriteFail := 0x00
  stEraseInvalid := 0x00
  stEraseFail := 0x02
  stEraseOk := 0x03
  stubGetRdpStatus := 0x00
  stubMemRead := 0x00
  stubReadSectorStatus := 0x00
  stubOtpRead := 0x00
  unknownPolicy := .silent
  crcInit := 0xFFFFFFFF
  crcAlg := .stm32
  eraseNoError := 0xFFFFFFFF
  rxLenMayFail := true
  rxBodyMayFail := true

namespace Config

/-- ACK, the first byte of an acknowledged response (R6, R73). -/
abbrev ack : Byte := 0xAB

/-- NACK, the whole of a negative response (R6, R74). -/
abbrev nack : Byte := 0xCD

/-- MASS_ERASE, the page_start value that asks for a whole-bank erase (R6, R163). -/
abbrev massErase : Byte := 0xFF

/-- ID_MASK, the identification register bits GetChipId reports (R6, R135). -/
abbrev idMask : Word := 0x0FFF

/-- MIN_FRAME_LEN, the smallest N a known command's frame may have (R6, R111). -/
abbrev minFrameLen : Nat := 5

/-- CRC_STEP of a build that does not use the default accumulator (R6, D8): free, one function for each name. -/
opaque otherCrcStep : Nat → Word → Word → Word

/-- The status the n-th draw of a run gives an FL_UNLOCK (R31, U11): free. -/
opaque freeUnlock : Nat → Status

/-- The status the n-th draw gives an FL_LOCK (R31, U11): free. -/
opaque freeLock : Nat → Status

/-- The status the n-th draw gives an FL_PROG (R31, U11): free. -/
opaque freeProg : Nat → Status

/-- The status and error value the n-th draw gives an FL_ERASE (R31, U11): free. -/
opaque freeErase : Nat → Status × Word

/-- The level byte the n-th draw gives an OPT_READ (R31, U11, U24): free. -/
opaque freeOpt : Nat → Byte

/-- The register value the n-th draw gives an ID_READ (R31, U11): free. -/
opaque freeId : Nat → Word

/-- Whether the n-th draw answers an RX(0) with Ok (R31, D5, U14): free. -/
opaque freeRxZero : Nat → Bool

/-- The byte the buffer holds at an index once its contents have become unspecified at the n-th draw: after a failed body
receive (R24, S2) and after a reset in mid-run (R34, S1). Free. -/
opaque freeBufByte : Nat → Nat → Byte

end Config

end Sys2Proof
end

