-- ==== Sys2Proof/Machine/Crc.lean ====
section
/-! DEFINITION. The CRC accumulator's function (spec/00_scope.md rules R6, R7; spec/40_frame.md rule R113). -/

namespace Sys2Proof.Machine

/-- One of the 32 shifts of R7: `if acc[31] = 1 then (acc << 1) XOR 0x04C11DB7 else acc << 1`. -/
def crcShift (acc : Word) : Word :=
  if acc.msb then (acc <<< 1) ^^^ 0x04C11DB7#32 else acc <<< 1

/-- `n` shifts. -/
def crcShifts : Nat → Word → Word
  | 0, acc => acc
  | n + 1, acc => crcShifts n (crcShift acc)

/-- CRC_STEP of the STM32 CRC unit (R7). PRESUMED: the spec marks it as general knowledge (notes/assumptions/2.md). -/
def stm32CrcStep (acc w : Word) : Word :=
  crcShifts 32 (acc ^^^ w)

/-- CRC_STEP (R6): the default, or a function of which nothing is known. -/
def crcStep : CrcAlg → Word → Word → Word
  | .stm32, acc, w => stm32CrcStep acc w
  | .other k, acc, w => Config.otherCrcStep k acc w

/-- How a byte becomes the accumulator's word: zero extension (R113, U23). -/
def crcWord (b : Byte) : Word :=
  b.zeroExtend 32

/-- The accumulator after a list of bytes has been fed, in order, from the value `acc` (R113). -/
def crcOf (alg : CrcAlg) (acc : Word) : List Byte → Word
  | [] => acc
  | b :: bs => crcOf alg (crcStep alg acc (crcWord b)) bs

end Sys2Proof.Machine
end

