-- ==== Sys2Proof/Syntax.lean ====
section
/-! DEFINITION. The engine's instruction set: the twelve command frames of spec/30_encoding.md rule R77 with the operands of
rule R78. Every row of spec/opcode_table.json is a constructor. -/

namespace Sys2Proof

/-- A command frame, as its handler sees it: the command and its operands (R77, R78). The frame length N and the CRC trailer
are no operands of a handler: the gate reads them from the frame buffer (spec/40_frame.md rule R110). -/
inductive Instr where
  /-- 0x10 GetVersion (R133). -/
  | getVersion
  /-- 0x11 GetHelp (R134). -/
  | getHelp
  /-- 0x12 GetChipId (R135). -/
  | getChipId
  /-- 0x13 GetRdpStatus, a stub (R230). -/
  | getRdpStatus
  /-- 0x14 GoToAddr (R203): `address` is LE32(2). -/
  | goToAddr (address : Word)
  /-- 0x15 FlashErase (R160): `pageStart` is BUF[2], `pageCount` is BUF[3]. -/
  | flashErase (pageStart pageCount : Byte)
  /-- 0x16 MemWrite (R170): `address` is LE32(2), the length of `payload` is BUF[6], its bytes are BUF[7 .. 6 + BUF[6]]. -/
  | memWrite (address : Word) (payload : List Byte)
  /-- 0x17 EnRWProtect (R231). -/
  | enRWProtect
  /-- 0x18 MemRead, a stub (R232). -/
  | memRead
  /-- 0x19 ReadSectorStatus, a stub (R233). -/
  | readSectorStatus
  /-- 0x20 OtpRead, a stub (R234). -/
  | otpRead
  /-- 0x21 ChangeRopLevel (R235). -/
  | changeRopLevel
  deriving DecidableEq, Repr

/-- The command code, byte 1 of the frame (R77). -/
def Instr.code : Instr → Byte
  | .getVersion => 0x10
  | .getHelp => 0x11
  | .getChipId => 0x12
  | .getRdpStatus => 0x13
  | .goToAddr _ => 0x14
  | .flashErase _ _ => 0x15
  | .memWrite _ _ => 0x16
  | .enRWProtect => 0x17
  | .memRead => 0x18
  | .readSectorStatus => 0x19
  | .otpRead => 0x20
  | .changeRopLevel => 0x21

/-- The natural frame length N of a command: 5 and its argument bytes (R79). -/
def Instr.naturalN : Instr → Nat
  | .getVersion => 5
  | .getHelp => 5
  | .getChipId => 5
  | .getRdpStatus => 5
  | .goToAddr _ => 9
  | .flashErase _ _ => 7
  | .memWrite _ payload => 10 + payload.length
  | .enRWProtect => 5
  | .memRead => 5
  | .readSectorStatus => 5
  | .otpRead => 5
  | .changeRopLevel => 5

end Sys2Proof
end

