-- ==== Sys2Proof/WellFormed.lean ====
section
/-! DEFINITION. Which instructions have a frame of their own (spec/30_encoding.md rule R86), and which configurations a run may
have (spec/00_scope.md rule R8). -/

namespace Sys2Proof

/-- An instruction a host can write as a frame: a MemWrite payload has at most 245 bytes, since N = 10 + m is one byte
(R86 "m ≤ 245"). Every operand of the other commands fills its field. -/
def Instr.wellFormed : Instr → Bool
  | .getVersion => true
  | .getHelp => true
  | .getChipId => true
  | .getRdpStatus => true
  | .goToAddr _ => true
  | .flashErase _ _ => true
  | .memWrite _ payload => decide (payload.length ≤ 245)
  | .enRWProtect => true
  | .memRead => true
  | .readSectorStatus => true
  | .otpRead => true
  | .changeRopLevel => true

/-- R8(a): neither window is empty, compared as unsigned values. -/
def Cfg.windowsOk (c : Cfg) : Bool :=
  decide (c.sramBase ≤ c.sramEnd) && decide (c.flashBase ≤ c.flashEnd)

/-- R8(b): 1 ≤ MAX_PAGES ≤ 255, so that 0xFF is never a page index. -/
def Cfg.pagesOk (c : Cfg) : Bool :=
  decide (1 ≤ c.maxPages) && decide (c.maxPages ≤ 255)

/-- R8(c): the status codes of one enumeration are distinct. -/
def Cfg.codesOk (c : Cfg) : Bool :=
  decide (c.stAddrValid ≠ c.stAddrInvalid) && decide (c.stWriteOk ≠ c.stWriteFail) &&
    decide (c.stEraseInvalid ≠ c.stEraseFail) && decide (c.stEraseInvalid ≠ c.stEraseOk) &&
    decide (c.stEraseFail ≠ c.stEraseOk)

/-- R8(d): the fixed operand offsets 0 .. 6 are inside the buffer. -/
def Cfg.capOk (c : Cfg) : Bool :=
  decide (7 ≤ c.bufCap)

/-- R8: the constraints every configuration must meet before a run. -/
def Cfg.wf (c : Cfg) : Bool :=
  c.windowsOk && c.pagesOk && c.codesOk && c.capOk

end Sys2Proof
end

