-- ==== Sys2Proof/Decode.lean ====
section
/-! DEFINITION. Frames to instructions and back (spec/30_encoding.md). The decoder is total on any bytes: it reads the command
byte and the operands at fixed offsets (R77, R78) and rejects the 244 unknown codes by name (R84). It looks neither at N nor
at the trailer, because the engine does not (R80); the gate does that (spec/40_frame.md rule R110). The encoder writes the
frame FRAME(c; a1, ..., ak) of R86. -/

namespace Sys2Proof

/-- Why bytes are no command frame. -/
inductive DecodeError where
  /-- Byte 1 is not one of the twelve codes (R84). -/
  | unknownCode (code : Byte)
  deriving DecidableEq, Repr

/-- LE32(i): the little-endian word at offset `i` (spec/20_memory.md rule R51). -/
def le32At (rd : Nat → Byte) (i : Nat) : Word :=
  rd (i + 3) ++ rd (i + 2) ++ rd (i + 1) ++ rd i

/-- The bytes of a word, least significant first (spec/20_memory.md rule R50). -/
def leBytes (w : Word) : List Byte :=
  [w.extractLsb' 0 8, w.extractLsb' 8 8, w.extractLsb' 16 8, w.extractLsb' 24 8]

/-- The `n` bytes from offset `i` on. -/
def bytesAt (rd : Nat → Byte) (i : Nat) : Nat → List Byte
  | 0 => []
  | n + 1 => rd i :: bytesAt rd (i + 1) n

/-- The opcode table (R77) for a frame whose byte `i` is `rd i`: each code, which byte 1 must equal in all its bits, with the
instruction it stands for, whose operands stand at fixed offsets (R78) whatever N is (R80). -/
def opcodeRows (rd : Nat → Byte) : List (Byte × Instr) :=
  [(0x10, .getVersion),
    (0x11, .getHelp),
    (0x12, .getChipId),
    (0x13, .getRdpStatus),
    (0x14, .goToAddr (le32At rd 2)),
    (0x15, .flashErase (rd 2) (rd 3)),
    (0x16, .memWrite (le32At rd 2) (bytesAt rd 7 (rd 6).toNat)),
    (0x17, .enRWProtect),
    (0x18, .memRead),
    (0x19, .readSectorStatus),
    (0x20, .otpRead),
    (0x21, .changeRopLevel)]

/-- The instruction of a frame whose byte `i` is `rd i` (R77, R84). -/
def decodeFrom (rd : Nat → Byte) : Except DecodeError Instr :=
  match (opcodeRows rd).lookup (rd 1) with
  | some i => .ok i
  | none => .error (.unknownCode (rd 1))

/-- A byte of a frame written as a list; past its end the buffer holds zero (spec/10_state.md rule R23). -/
def frameByte (bs : List Byte) (i : Nat) : Byte :=
  bs.getD i 0

/-- The instruction of a frame written as a list of bytes, the length byte first. -/
def decode (bs : List Byte) : Except DecodeError Instr :=
  decodeFrom (frameByte bs)

/-- The argument bytes of an instruction's frame (R86). -/
def Instr.args : Instr → List Byte
  | .getVersion => []
  | .getHelp => []
  | .getChipId => []
  | .getRdpStatus => []
  | .goToAddr address => leBytes address
  | .flashErase pageStart pageCount => [pageStart, pageCount]
  | .memWrite address payload => leBytes address ++ BitVec.ofNat 8 payload.length :: payload
  | .enRWProtect => []
  | .memRead => []
  | .readSectorStatus => []
  | .otpRead => []
  | .changeRopLevel => []

/-- The covered bytes of a frame: the length byte N = 5 + k, the command and the k arguments (R71, R86). -/
def coveredBytes (code : Byte) (args : List Byte) : List Byte :=
  BitVec.ofNat 8 (5 + args.length) :: code :: args

/-- FRAME(c; a1, ..., ak): the covered bytes and the CRC over them, low byte first (R71, R86). -/
def sealFrame (cfg : Cfg) (code : Byte) (args : List Byte) : List Byte :=
  coveredBytes code args ++ leBytes (Machine.crcOf cfg.crcAlg cfg.crcInit (coveredBytes code args))

/-- The frame of an instruction (R86), for a build that computes the CRC as `cfg` says. -/
def encode (cfg : Cfg) (i : Instr) : List Byte :=
  sealFrame cfg i.code i.args

/-- The `n` low bytes of a number, least significant first. -/
def numberBytes : Nat → Nat → List Byte
  | 0, _ => []
  | n + 1, w => BitVec.ofNat 8 w :: numberBytes n (w / 256)

/-- The frame bytes that spec/opcode_table.json numbers from bit 0 on: the table's match and mask "apply to byte 1 (BUF[1])",
so bit 0 is the least significant bit of byte 1, and byte 0 (N), which takes no part in selection (R77), is left zero (DESIGN CHOICE,
notes/assumptions/14.md). -/
def tableBytes (nbits w : Nat) : List Byte :=
  0 :: numberBytes (nbits / 8) w

/-- The instruction the decoder reads from a word numbered as spec/opcode_table.json numbers it. -/
def decodeTableWord (nbits w : Nat) : Option Instr :=
  match decode (tableBytes nbits w) with
  | .ok i => some i
  | .error _ => none

end Sys2Proof
end

