-- ==== Sys2Proof/Machine/State.lean ====
section
/-! DEFINITION. Everything the spec gives the engine (spec/10_state.md), as plain data: the configuration, the control state
with the position inside the handler that runs, the frame buffer, the CRC accumulator, the flash scope bit, the fault record,
the event trace, and the model's own inputs (the bytes the host sends, the collaborators' answers). -/

namespace Sys2Proof.Machine

/-- Bytes by index, in one canonical form (notes/assumptions/16.md): indexes strictly rising, no entry equal to 0, which is what an unlisted index reads
as (the clear of spec/40_frame.md rule R100 writes 0 everywhere). -/
abbrev Memory := List Host.Cell

/-- The model faults of spec/10_state.md rule R32. They are raised as state (a `Fault` event, S_FAULT, the fault record); the
step after that answers `Outcome.fault`. No fault appears on the wire (R265). -/
inductive Fault where
  /-- RX_OVERFLOW (R104, R263): raised in S_RX_BODY when N + 1 > BUF_CAP, before any body receive. Safe: the engine stops. -/
  | rxOverflow
  /-- BUF_OOB (R12, R264): raised by a handler that reads BUF[i] with i ≥ BUF_CAP. Safe: the engine stops. -/
  | bufOob
  deriving DecidableEq, Repr

/-- Why a step has no meaning. -/
inductive Refusal where
  /-- An instruction whose meaning is not written (raised by exec's refused arms only; there is none). Safe. -/
  | notModelled (mnemonic : String)
  /-- The configuration fails spec/00_scope.md rule R8, "refuses a configuration that fails any of them" (raised by step and
  tick). Safe. -/
  | badConfig
  /-- The run has ended: S_HANDOFF is terminal (spec/43_address.md rule R206), and so is S_FAULT (R265); raised by step and
  tick. Safe: no later step exists. -/
  | ended
  deriving DecidableEq, Repr

/-- The configuration passed to FL_ERASE (spec/30_encoding.md rule R83). -/
inductive EraseCfg where
  /-- The whole bank. -/
  | mass
  /-- `count` pages from page `first` on. -/
  | pages (first count : Nat)
  deriving DecidableEq, Repr

/-- The answer to RX(n) (R12): the bytes, or Fail. -/
inductive RxAnswer where
  | ok (bytes : List Byte)
  | fail
  deriving DecidableEq, Repr

/-- The interface events of spec/00_scope.md rule R10, each with its answer. -/
inductive Event where
  | rxReq (n : Nat) (answer : RxAnswer)
  | tx (b : Byte)
  | crcStep (w value : Word)
  | crcReset
  | flUnlock (status : Status)
  | flErase (cfg : EraseCfg) (status : Status) (err : Word)
  | flProg (address : Word) (value : Byte) (status : Status)
  | flLock (status : Status)
  | optRead (rdp : Byte)
  | idRead (w : Word)
  | handoff (target : Word)
  | fault (reason : Fault)
  deriving DecidableEq, Repr

/-- One action of a handler's pseudocode, with the local values it needs (R13, R28). What is left of a handler, as a list of
these, is the position inside its pseudocode (R20; notes/assumptions/7.md). -/
inductive Act where
  /-- GATE(), its length check (R111). -/
  | gate
  /-- Feed covered byte `i` to the accumulator (R113). -/
  | feed (i : Nat)
  /-- CRC_RESET (R114). -/
  | crcReset
  /-- Compare the computed CRC with the host's (R115, R116). -/
  | compare (acc : Word)
  /-- TX of one byte. -/
  | tx (b : Byte)
  /-- ID_READ, then the two identifier bytes (R135). -/
  | readId
  /-- OPT_READ, then the level byte (R231). -/
  | readOpt
  /-- The address check of GoToAddr and what follows it (R203). -/
  | goTo (address : Word)
  /-- HANDOFF(t) (R206). -/
  | handoff (target : Word)
  /-- The checks of ERASE(ps, pc) (R161). -/
  | erase (pageStart pageCount : Byte)
  /-- FL_UNLOCK of an erase (R166). -/
  | eraseUnlock (cfg : EraseCfg)
  /-- FL_ERASE (R166). -/
  | eraseRun (cfg : EraseCfg)
  /-- FL_LOCK of an erase whose FL_ERASE returned `err`, then the status byte (R166, R167). -/
  | eraseLock (err : Word)
  /-- The address check of MemWrite and the reads of its payload (R170). -/
  | write (address : Word) (payload : List Byte)
  /-- FL_UNLOCK of a program (R172). -/
  | progUnlock (address : Word) (payload : List Byte)
  /-- FL_PROG of `b` at `address`; `rest` are the payload bytes after it (R173, R174). -/
  | progByte (address : Word) (b : Byte) (rest : List Byte)
  /-- FL_LOCK after every byte was programmed, then the status byte (R175). -/
  | progLock
  /-- FL_LOCK after a byte failed, then ST_WRITE_FAIL (R174). -/
  | progAbort
  deriving DecidableEq, Repr

/-- The control state fsm (R20). -/
inductive Fsm where
  /-- S_IDLE, the cycle start. -/
  | idle
  /-- S_RX_LEN. -/
  | rxLen
  /-- S_RX_BODY. -/
  | rxBody
  /-- S_DISPATCH. -/
  | dispatch
  /-- S_EXEC(c), with the position inside the handler of code `c`: the actions left. -/
  | exec (code : Byte) (todo : List Act)
  /-- S_HANDOFF, terminal. -/
  | handoff
  /-- S_FAULT, terminal. -/
  | fault
  deriving DecidableEq, Repr

/-- What the transport delivers, in order. The model's own: an input from outside (notes/assumptions/5.md). -/
inductive RxItem where
  /-- A byte the host sent. -/
  | byte (b : Byte)
  /-- The transport gave up: a receive with a finite timeout that meets this answers Fail. -/
  | silence
  deriving DecidableEq, Repr

/-- The answers the collaborators will give, each list in the order of the requests of its kind. The model's own: an input
from outside. Where a list has run out, the answer is a free value of Config (notes/assumptions/4.md). -/
structure Oracle where
  /-- Answers to FL_UNLOCK. -/
  unlock : List Status
  /-- Answers to FL_LOCK. -/
  lock : List Status
  /-- Answers to FL_PROG. -/
  prog : List Status
  /-- Answers to FL_ERASE. -/
  erase : List (Status × Word)
  /-- Answers to OPT_READ, the read-protection level of the option bytes (R30). -/
  opt : List Byte
  /-- Answers to ID_READ, the identification register (R30). -/
  ident : List Word
  /-- Answers to RX(0): true is Ok (R31). -/
  rxZero : List Bool
  deriving DecidableEq, Repr

/-- The engine. -/
structure State where
  /-- CFG, read-only (R29). -/
  cfg : Cfg
  /-- fsm and the position inside the handler (R20). -/
  fsm : Fsm
  /-- BUF, the frame buffer (R21). -/
  buf : Memory
  /-- crc_acc, the CRC accumulator's register (R25). -/
  crcAcc : Word
  /-- fl_open, the flash scope bit (R26). -/
  flOpen : Bool
  /-- The fault record (R32). -/
  fault : Option Fault
  /-- The event trace, oldest first (spec/00_scope.md rule R10; notes/assumptions/9.md). -/
  trace : List Event
  /-- What the transport will deliver (the model's own). -/
  rx : List RxItem
  /-- What the collaborators will answer (the model's own). -/
  oracle : Oracle
  /-- How many free values have been drawn (the model's own). -/
  draws : Nat
  deriving DecidableEq, Repr

/-- The answers of a run about which nothing is said. -/
def Oracle.free : Oracle where
  unlock := []
  lock := []
  prog := []
  erase := []
  opt := []
  ident := []
  rxZero := []

/-- The state after reset of a build configured as `cfg` (R34): fsm = S_IDLE, fl_open = false, fault = none,
crc_acc = CRC_INIT. BUF is unspecified there; it is zero here (DESIGN CHOICE, notes/assumptions/3.md). Nothing has been
received and no answer is fixed. -/
def State.resetWith (cfg : Cfg) : State where
  cfg := cfg
  fsm := .idle
  buf := []
  crcAcc := cfg.crcInit
  flOpen := false
  fault := none
  trace := []
  rx := []
  oracle := Oracle.free
  draws := 0

/-- The state after reset (R34, R290), of the example configuration (notes/assumptions/1.md). -/
def State.reset : State :=
  State.resetWith Cfg.sample

end Sys2Proof.Machine
end

