-- ==== Sys2Proof/Machine/Memory.lean ====
section
/-! DEFINITION. Bytes by index in canonical form (Host.Cell): read, write, and the predicate that says the form holds. -/

namespace Sys2Proof.Machine

/-- The byte at index `i`: 0 where none is listed. -/
def Memory.read : Memory → Nat → Byte
  | [], _ => 0
  | (a, b) :: m, i => if a = i then b else Memory.read m i

/-- An entry put in front, unless it says what an unlisted index reads as. -/
def Memory.cons (a : Nat) (b : Byte) (m : Memory) : Memory :=
  if b = 0 then m else (a, b) :: m

/-- Write byte `b` at index `i`, keeping the canonical form. -/
def Memory.write : Memory → Nat → Byte → Memory
  | [], i, b => Memory.cons i b []
  | (a, x) :: m, i, b =>
    if i < a then Memory.cons i b ((a, x) :: m)
    else if i = a then Memory.cons i b m
    else (a, x) :: Memory.write m i b

/-- Write a list of bytes from index `i` on. -/
def Memory.writeList : Memory → Nat → List Byte → Memory
  | m, _, [] => m
  | m, i, b :: bs => Memory.writeList (Memory.write m i b) (i + 1) bs

/-- A buffer that holds these bytes from index 0 on, and 0 elsewhere. -/
def Memory.ofBytes (bs : List Byte) : Memory :=
  Memory.writeList [] 0 bs

/-- Every listed index is at least `lo`, the indexes rise strictly, and no listed byte is 0. -/
def Memory.wfFrom : Nat → Memory → Bool
  | _, [] => true
  | lo, (a, b) :: m => decide (lo ≤ a) && decide (b ≠ 0) && Memory.wfFrom (a + 1) m

/-- The canonical form. -/
def Memory.wf (m : Memory) : Bool :=
  Memory.wfFrom 0 m

/-- Every listed index is below `cap`. -/
def Memory.within (cap : Nat) (m : Memory) : Bool :=
  m.all fun cell => decide (cell.1 < cap)

end Sys2Proof.Machine
end

