-- ==== Sys2Proof/Machine/Operands.lean ====
section
/-! DEFINITION. What a handler reads of the frame buffer: single bytes and little-endian words, each read checked against the
capacity (spec/00_scope.md rule R12, spec/20_memory.md rules R51, R66); the frame length and the covered bytes
(spec/40_frame.md rules R110, R112). The operands themselves are assembled by the decoder (spec/30_encoding.md rule R78). -/

namespace Sys2Proof.Machine

/-- BUF[i]: nothing where `i ≥ BUF_CAP` (R12; the reader then raises BUF_OOB). -/
def State.bufByte? (s : State) (i : Nat) : Option Byte :=
  if i < s.cfg.bufCap then some (s.buf.read i) else none

/-- LE32(i), four checked reads (R51). -/
def State.bufWord? (s : State) (i : Nat) : Option Word :=
  if i + 3 < s.cfg.bufCap then some (le32At s.buf.read i) else none

/-- N, the frame length byte BUF[0] (spec/10_state.md rule R22). -/
def State.frameLen (s : State) : Nat :=
  (s.buf.read 0).toNat

/-- L = N - 3, how many bytes the CRC covers (R112). -/
def State.coveredLen (s : State) : Nat :=
  s.frameLen - 3

/-- The covered bytes BUF[0 .. N-4] (R112). -/
def State.covered (s : State) : List Byte :=
  bytesAt s.buf.read 0 s.coveredLen

/-- The host's CRC, LE32(N - 3) (R115). -/
def State.hostCrc (s : State) : Word :=
  le32At s.buf.read (s.frameLen - 3)

/-- The instruction of the frame in the buffer (spec/41_dispatch.md rule R130), its operands assembled at once (DEDUCED,
notes/assumptions/13.md). -/
def State.instr (s : State) : Except DecodeError Instr :=
  decodeFrom s.buf.read

end Sys2Proof.Machine
end

