-- ==== Sys2Proof/Machine/Flags.lean ====
section
/-! DEFINITION. The transient results of spec/10_state.md rule R28. The engine has no flags: each of these is a local value of
one handler invocation. -/

namespace Sys2Proof.Machine

/-- The computed CRC: the covered bytes fed to the accumulator as it stands (spec/40_frame.md rule R113). -/
def State.gateCrc (s : State) : Word :=
  crcOf s.cfg.crcAlg s.crcAcc s.covered

/-- The gate result: PASS exactly when N ≥ 5 and the two CRCs agree in all 32 bits (R111, R116). -/
def State.gatePasses (s : State) : Bool :=
  decide (Config.minFrameLen ≤ s.frameLen) && decide (s.gateCrc = s.hostCrc)

/-- VALIDATE(a) (spec/43_address.md rule R200). -/
def validate (cfg : Cfg) (a : Word) : Bool :=
  (decide (cfg.sramBase ≤ a) && decide (a ≤ cfg.sramEnd)) ||
    (decide (cfg.flashBase ≤ a) && decide (a ≤ cfg.flashEnd))

/-- The checks of ERASE(ps, pc), in their order (spec/42_flash.md rules R161 to R165): the page-count check, the mass-erase
test, the page-start check, the clamp. Nothing where the status is ST_ERASE_INVALID. -/
def eraseCfg? (cfg : Cfg) (pageStart pageCount : Byte) : Option EraseCfg :=
  if cfg.maxPages < pageCount.toNat then none
  else if pageStart = Config.massErase then some .mass
  else if cfg.maxPages ≤ pageStart.toNat then none
  else some (.pages pageStart.toNat (min pageCount.toNat (cfg.maxPages - pageStart.toNat)))

/-- The erase status once FL_ERASE has returned `err` (R167). -/
def eraseStatus (cfg : Cfg) (err : Word) : Byte :=
  if err = cfg.eraseNoError then cfg.stEraseOk else cfg.stEraseFail

/-- The write status once the final FL_LOCK has returned `status` (R175). -/
def writeStatus (cfg : Cfg) (status : Status) : Byte :=
  if status = .ok then cfg.stWriteOk else cfg.stWriteFail

/-- The identifier GetChipId reports: the register's low 12 bits (spec/41_dispatch.md rule R135). -/
def chipId (w : Word) : Word :=
  w &&& Config.idMask

end Sys2Proof.Machine
end

