-- ==== Sys2Proof/Machine/Ops.lean ====
section
/-! DEFINITION. The pseudocode primitives of spec/00_scope.md rule R12, each of which issues one event; the actions the
handlers are made of; and running a handler to its end. -/

namespace Sys2Proof.Machine

/-- Append an event to the trace (R10). -/
def State.emit (s : State) (e : Event) : State :=
  { s with trace := s.trace ++ [e] }

/-- TX of one byte (R12, D25). -/
def State.send (s : State) (b : Byte) : State :=
  s.emit (.tx b)

/-- CRC_ACC(w): `crc_acc <- CRC_STEP(crc_acc, w)` (spec/10_state.md rule R25). -/
def State.accumulate (s : State) (w : Word) : State :=
  let v := crcStep s.cfg.crcAlg s.crcAcc w
  { s with crcAcc := v, trace := s.trace ++ [.crcStep w v] }

/-- CRC_RESET: `crc_acc <- CRC_INIT` (R25). -/
def State.resetCrc (s : State) : State :=
  { s with crcAcc := s.cfg.crcInit, trace := s.trace ++ [.crcReset] }

/-- The answer the next FL_UNLOCK gets (R31). -/
def State.unlockAnswer (s : State) : Status :=
  s.oracle.unlock.headD (Config.freeUnlock s.draws)

/-- The answer the next FL_LOCK gets (R31). -/
def State.lockAnswer (s : State) : Status :=
  s.oracle.lock.headD (Config.freeLock s.draws)

/-- The answer the next FL_PROG gets (R31). -/
def State.progAnswer (s : State) : Status :=
  s.oracle.prog.headD (Config.freeProg s.draws)

/-- The answer the next FL_ERASE gets (R31). -/
def State.eraseAnswer (s : State) : Status × Word :=
  s.oracle.erase.headD (Config.freeErase s.draws)

/-- The answer the next OPT_READ gets (R31). -/
def State.optAnswer (s : State) : Byte :=
  s.oracle.opt.headD (Config.freeOpt s.draws)

/-- The answer the next ID_READ gets (R31). -/
def State.idAnswer (s : State) : Word :=
  s.oracle.ident.headD (Config.freeId s.draws)

/-- The answer the next RX(0) gets: true is Ok (R31). -/
def State.rxZeroAnswer (s : State) : Bool :=
  s.oracle.rxZero.headD (Config.freeRxZero s.draws)

/-- FL_UNLOCK: `fl_open <- true` (R12, R26). -/
def State.flUnlock (s : State) : State :=
  { s with
    flOpen := true
    trace := s.trace ++ [.flUnlock s.unlockAnswer]
    oracle := { s.oracle with unlock := s.oracle.unlock.tail }
    draws := s.draws + 1 }

/-- FL_LOCK: `fl_open <- false` (R12, R26). -/
def State.flLock (s : State) : State :=
  { s with
    flOpen := false
    trace := s.trace ++ [.flLock s.lockAnswer]
    oracle := { s.oracle with lock := s.oracle.lock.tail }
    draws := s.draws + 1 }

/-- FL_PROG(a, v) (R12). -/
def State.flProg (s : State) (a : Word) (v : Byte) : State :=
  { s with
    trace := s.trace ++ [.flProg a v s.progAnswer]
    oracle := { s.oracle with prog := s.oracle.prog.tail }
    draws := s.draws + 1 }

/-- FL_ERASE(cfg) (R12). -/
def State.flErase (s : State) (c : EraseCfg) : State :=
  { s with
    trace := s.trace ++ [.flErase c s.eraseAnswer.1 s.eraseAnswer.2]
    oracle := { s.oracle with erase := s.oracle.erase.tail }
    draws := s.draws + 1 }

/-- OPT_READ (R12). -/
def State.optRead (s : State) : State :=
  { s with
    trace := s.trace ++ [.optRead s.optAnswer]
    oracle := { s.oracle with opt := s.oracle.opt.tail }
    draws := s.draws + 1 }

/-- ID_READ (R12). -/
def State.idRead (s : State) : State :=
  { s with
    trace := s.trace ++ [.idRead s.idAnswer]
    oracle := { s.oracle with ident := s.oracle.ident.tail }
    draws := s.draws + 1 }

/-- HANDOFF(t): append the event, `fsm <- S_HANDOFF` (R12, spec/43_address.md rule R206). -/
def State.handOff (s : State) (t : Word) : State :=
  { s with fsm := .handoff, trace := s.trace ++ [.handoff t] }

/-- raise Fault(r): append the event, `fsm <- S_FAULT`, and record `r` unless a fault is recorded already (R12, R32). -/
def State.raise (s : State) (r : Fault) : State :=
  { s with fsm := .fault, fault := some (s.fault.getD r), trace := s.trace ++ [.fault r] }

/-- Go on in the handler of `code` with the actions `todo`. -/
def State.goOn (s : State) (code : Byte) (todo : List Act) : State :=
  { s with fsm := .exec code todo }

/-- A handler returns: `fsm <- S_IDLE` (spec/41_dispatch.md rule R137). -/
def State.toIdle (s : State) : State :=
  { s with fsm := .idle }

/-- GATE(), its length check (spec/40_frame.md rule R111): a short frame is NACKed before the accumulator is touched. -/
def State.gateLength (s : State) (code : Byte) (rest : List Act) : State :=
  match s.bufByte? 0 with
  | none => s.raise .bufOob
  | some n =>
    if n.toNat < Config.minFrameLen then s.goOn code [.tx Config.nack]
    else s.goOn code (.feed 0 :: rest)

/-- GATE(), covered byte `i` (R113): `acc <- CRC_ACC(zext_32(BUF[i]))`, and on to the next byte or to CRC_RESET. -/
def State.gateFeed (s : State) (i : Nat) (code : Byte) (rest : List Act) : State :=
  match s.bufByte? i with
  | none => s.raise .bufOob
  | some b =>
    (s.accumulate (crcWord b)).goOn code
      (if i + 1 < s.coveredLen then .feed (i + 1) :: rest else .crcReset :: rest)

/-- GATE(), CRC_RESET (R114): the value computed so far is kept for the comparison. -/
def State.gateReset (s : State) (code : Byte) (rest : List Act) : State :=
  s.resetCrc.goOn code (.compare s.crcAcc :: rest)

/-- GATE(), the comparison (R115 to R117): on a mismatch the NACK and nothing else. -/
def State.gateCompare (s : State) (acc : Word) (code : Byte) (rest : List Act) : State :=
  match s.bufWord? (s.frameLen - 3) with
  | none => s.raise .bufOob
  | some host => s.goOn code (if acc = host then rest else [.tx Config.nack])

/-- GetChipId's register read and the two bytes it sends, low byte first (spec/41_dispatch.md rule R135, R52). -/
def State.sendId (s : State) (code : Byte) (rest : List Act) : State :=
  let id := chipId s.idAnswer
  s.idRead.goOn code (.tx (id.extractLsb' 0 8) :: .tx (id.extractLsb' 8 8) :: rest)

/-- EnRWProtect's option-byte read and the byte it sends (spec/44_protection.md rule R231). -/
def State.sendOpt (s : State) (code : Byte) (rest : List Act) : State :=
  s.optRead.goOn code (.tx s.optAnswer :: rest)

/-- GoToAddr after its ACK (spec/43_address.md rules R203 to R205): the target is `(a + 1) mod 2^32`. -/
def State.goToChecked (s : State) (a : Word) (code : Byte) (rest : List Act) : State :=
  s.goOn code
    (if validate s.cfg a then .tx s.cfg.stAddrValid :: .handoff (a + 1) :: rest
      else .tx s.cfg.stAddrInvalid :: rest)

/-- ERASE(ps, pc), its checks (spec/42_flash.md rule R161): on a failed check the status and no flash request. -/
def State.eraseChecked (s : State) (ps pc : Byte) (code : Byte) (rest : List Act) : State :=
  match eraseCfg? s.cfg ps pc with
  | none => s.goOn code (.tx s.cfg.stEraseInvalid :: rest)
  | some c => s.goOn code (.eraseUnlock c :: rest)

/-- ERASE, FL_UNLOCK: its status is not examined (R166). -/
def State.eraseUnlocked (s : State) (c : EraseCfg) (code : Byte) (rest : List Act) : State :=
  s.flUnlock.goOn code (.eraseRun c :: rest)

/-- ERASE, FL_ERASE: of its answer only `err` is kept (R167). -/
def State.eraseDone (s : State) (c : EraseCfg) (code : Byte) (rest : List Act) : State :=
  (s.flErase c).goOn code (.eraseLock s.eraseAnswer.2 :: rest)

/-- ERASE, FL_LOCK: its status is not examined; then the status byte (R166, R167). -/
def State.eraseLocked (s : State) (err : Word) (code : Byte) (rest : List Act) : State :=
  s.flLock.goOn code (.tx (eraseStatus s.cfg err) :: rest)

/-- MemWrite after its ACK (R170): the address first, then the reads of the payload, which raise BUF_OOB before any flash
request when `6 + len ≥ BUF_CAP` (R264). -/
def State.writeChecked (s : State) (a : Word) (payload : List Byte) (code : Byte) (rest : List Act) : State :=
  if validate s.cfg a then
    if s.cfg.bufCap ≤ 6 + payload.length then s.raise .bufOob
    else s.goOn code (.progUnlock a payload :: rest)
  else s.goOn code (.tx s.cfg.stAddrInvalid :: rest)

/-- The program loop at address `a`: the next byte, or the final lock (R173, R175). -/
def progNext (a : Word) : List Byte → Act
  | [] => .progLock
  | b :: bs => .progByte a b bs

/-- PROGRAM, FL_UNLOCK (R172): a failed unlock sets fl_open back and issues neither FL_PROG nor FL_LOCK. -/
def State.progUnlocked (s : State) (a : Word) (payload : List Byte) (code : Byte) (rest : List Act) : State :=
  if s.unlockAnswer = .ok then s.flUnlock.goOn code (progNext a payload :: rest)
  else ({ s.flUnlock with flOpen := false }).goOn code (.tx s.cfg.stWriteFail :: rest)

/-- PROGRAM, one FL_PROG (R173, R174): on to the next byte at the next address, or to the lock of the failure path. -/
def State.progStepped (s : State) (a : Word) (b : Byte) (bs : List Byte) (code : Byte) (rest : List Act) : State :=
  (s.flProg a b).goOn code ((if s.progAnswer = .ok then progNext (a + 1) bs else .progAbort) :: rest)

/-- PROGRAM, the final FL_LOCK, whose status decides (R175). -/
def State.progLocked (s : State) (code : Byte) (rest : List Act) : State :=
  s.flLock.goOn code (.tx (writeStatus s.cfg s.lockAnswer) :: rest)

/-- PROGRAM, the FL_LOCK after a failed byte, whose status is not examined (R174). -/
def State.progAborted (s : State) (code : Byte) (rest : List Act) : State :=
  s.flLock.goOn code (.tx s.cfg.stWriteFail :: rest)

/-- Perform one action of the handler of `code`; `rest` are the actions after it. -/
def Act.perform (a : Act) (code : Byte) (rest : List Act) (s : State) : State :=
  match a with
  | .gate => s.gateLength code rest
  | .feed i => s.gateFeed i code rest
  | .crcReset => s.gateReset code rest
  | .compare acc => s.gateCompare acc code rest
  | .tx b => (s.send b).goOn code rest
  | .readId => s.sendId code rest
  | .readOpt => s.sendOpt code rest
  | .goTo address => s.goToChecked address code rest
  | .handoff target => s.handOff target
  | .erase pageStart pageCount => s.eraseChecked pageStart pageCount code rest
  | .eraseUnlock cfg => s.eraseUnlocked cfg code rest
  | .eraseRun cfg => s.eraseDone cfg code rest
  | .eraseLock err => s.eraseLocked err code rest
  | .write address payload => s.writeChecked address payload code rest
  | .progUnlock address payload => s.progUnlocked address payload code rest
  | .progByte address b bs => s.progStepped address b bs code rest
  | .progLock => s.progLocked code rest
  | .progAbort => s.progAborted code rest

/-- One move inside a handler: the next action, or the return when none is left (R137). -/
def State.advance (s : State) : State :=
  match s.fsm with
  | .exec code (a :: rest) => a.perform code rest s
  | .exec _ [] => s.toIdle
  | _ => s

/-- More moves than an action can lead to, itself included. -/
def Act.weight : Act → Nat
  | .gate => 257
  | .feed i => (252 - i) + 4
  | .crcReset => 3
  | .compare _ => 2
  | .tx _ => 1
  | .readId => 3
  | .readOpt => 2
  | .goTo _ => 3
  | .handoff _ => 1
  | .erase _ _ => 5
  | .eraseUnlock _ => 4
  | .eraseRun _ => 3
  | .eraseLock _ => 2
  | .write _ payload => payload.length + 4
  | .progUnlock _ payload => payload.length + 3
  | .progByte _ _ rest => rest.length + 3
  | .progLock => 2
  | .progAbort => 2

/-- More moves than the actions can lead to. -/
def todoWeight : List Act → Nat
  | [] => 0
  | a :: rest => a.weight + todoWeight rest

/-- Enough moves for the handler that runs to end. -/
def State.movesLeft (s : State) : Nat :=
  match s.fsm with
  | .exec _ todo => todoWeight todo + 1
  | _ => 0

/-- At most `n` moves of the handler that runs. -/
def State.advanceBy : Nat → State → State
  | 0, s => s
  | n + 1, s =>
    match s.fsm with
    | .exec _ _ => State.advanceBy n s.advance
    | _ => s

/-- The handler that runs, run to its end (R136). -/
def State.finish (s : State) : State :=
  State.advanceBy s.movesLeft s

/-- Run the handler of `code`, whose pseudocode is `program`, from its start to its end (R130, R136). -/
def runHandler (code : Byte) (program : List Act) (s : State) : Host.Outcome State Fault Refusal :=
  .next (s.goOn code program).finish

/-- TX(b0, b1, ...): the bytes in order (spec/20_memory.md rule R53). -/
def sends (bs : List Byte) : List Act :=
  bs.map Act.tx

end Sys2Proof.Machine
end

