-- ==== Sys2Proof/Machine/Flash.lean ====
section
/-! DEFINITION. The flash sequencer's commands (spec/42_flash.md): FlashErase and MemWrite. -/

namespace Sys2Proof.Machine

/-- The handler of FlashErase (R160): gate, `TX(0xAB, 0x01)`, then ERASE(ps, pc) of R161 and its status byte. -/
def flashEraseProgram (pageStart pageCount : Byte) : List Act :=
  .gate :: (sends [Config.ack, 0x01] ++ [.erase pageStart pageCount])

/-- FlashErase, 0x15 (R160). -/
def execFlashErase (pageStart pageCount : Byte) (s : State) : Host.Outcome State Fault Refusal :=
  runHandler 0x15 (flashEraseProgram pageStart pageCount) s

/-- The handler of MemWrite (R170): gate, `TX(0xAB, 0x01)`, the address check, then PROGRAM(a, data) of R171 and its status
byte. -/
def memWriteProgram (address : Word) (payload : List Byte) : List Act :=
  .gate :: (sends [Config.ack, 0x01] ++ [.write address payload])

/-- MemWrite, 0x16 (R170). -/
def execMemWrite (address : Word) (payload : List Byte) (s : State) : Host.Outcome State Fault Refusal :=
  runHandler 0x16 (memWriteProgram address payload) s

end Sys2Proof.Machine
end

