-- ==== Sys2Proof/Machine/Goto.lean ====
section
/-! DEFINITION. GoToAddr (spec/43_address.md). -/

namespace Sys2Proof.Machine

/-- The handler of GoToAddr (R203): gate, `TX(0xAB, 0x01)`, the address check, and the handoff if it is valid. -/
def goToAddrProgram (address : Word) : List Act :=
  .gate :: (sends [Config.ack, 0x01] ++ [.goTo address])

/-- GoToAddr, 0x14 (R203). -/
def execGoToAddr (address : Word) (s : State) : Host.Outcome State Fault Refusal :=
  runHandler 0x14 (goToAddrProgram address) s

end Sys2Proof.Machine
end

