-- ==== Sys2Proof/Machine/Identity.lean ====
section
/-! DEFINITION. The identity commands (spec/41_dispatch.md): GetVersion, GetHelp, GetChipId. -/

namespace Sys2Proof.Machine

/-- The handler of GetVersion (R133): gate, then `TX(0xAB, 0x04, VERSION[0], ..., VERSION[3])`. -/
def getVersionProgram (cfg : Cfg) : List Act :=
  .gate :: sends [Config.ack, 0x04, cfg.version0, cfg.version1, cfg.version2, cfg.version3]

/-- GetVersion, 0x10 (R133). -/
def execGetVersion (s : State) : Host.Outcome State Fault Refusal :=
  runHandler 0x10 (getVersionProgram s.cfg) s

/-- The GetHelp reply table: the twelve codes in ascending order (spec/30_encoding.md rule R82). -/
def helpTable : List Byte :=
  [0x10, 0x11, 0x12, 0x13, 0x14, 0x15, 0x16, 0x17, 0x18, 0x19, 0x20, 0x21]

/-- The handler of GetHelp (R134): gate, then `TX(0xAB, 0x0C, ...)` with the twelve codes. -/
def getHelpProgram : List Act :=
  .gate :: sends (Config.ack :: 0x0C :: helpTable)

/-- GetHelp, 0x11 (R134). -/
def execGetHelp (s : State) : Host.Outcome State Fault Refusal :=
  runHandler 0x11 getHelpProgram s

/-- The handler of GetChipId (R135): gate, ID_READ, two bytes with no ACK before them. -/
def getChipIdProgram : List Act :=
  [.gate, .readId]

/-- GetChipId, 0x12 (R135). -/
def execGetChipId (s : State) : Host.Outcome State Fault Refusal :=
  runHandler 0x12 getChipIdProgram s

end Sys2Proof.Machine
end

