-- ==== Sys2Proof/Machine/Protection.lean ====
section
/-! DEFINITION. The protection and stub commands (spec/44_protection.md): EnRWProtect, ChangeRopLevel, and the four stubs. -/

namespace Sys2Proof.Machine

/-- The handler of EnRWProtect (R231): gate, `TX(0xAB, 0x01)`, OPT_READ, the byte as read. -/
def enRWProtectProgram : List Act :=
  .gate :: (sends [Config.ack, 0x01] ++ [.readOpt])

/-- EnRWProtect, 0x17 (R231). -/
def execEnRWProtect (s : State) : Host.Outcome State Fault Refusal :=
  runHandler 0x17 enRWProtectProgram s

/-- The handler of ChangeRopLevel (R235): gate, `TX(0xAB, 0x01)`, and no payload byte. -/
def changeRopLevelProgram : List Act :=
  .gate :: sends [Config.ack, 0x01]

/-- ChangeRopLevel, 0x21 (R235). -/
def execChangeRopLevel (s : State) : Host.Outcome State Fault Refusal :=
  runHandler 0x21 changeRopLevelProgram s

/-- STUB(c) (R236): gate, then `TX(0xAB, 0x01, STUB_REPLY[c])`. -/
def stubProgram (reply : Byte) : List Act :=
  .gate :: sends [Config.ack, 0x01, reply]

/-- GetRdpStatus, 0x13 (R230). -/
def execGetRdpStatus (s : State) : Host.Outcome State Fault Refusal :=
  runHandler 0x13 (stubProgram s.cfg.stubGetRdpStatus) s

/-- MemRead, 0x18 (R232). -/
def execMemRead (s : State) : Host.Outcome State Fault Refusal :=
  runHandler 0x18 (stubProgram s.cfg.stubMemRead) s

/-- ReadSectorStatus, 0x19 (R233). -/
def execReadSectorStatus (s : State) : Host.Outcome State Fault Refusal :=
  runHandler 0x19 (stubProgram s.cfg.stubReadSectorStatus) s

/-- OtpRead, 0x20 (R234). -/
def execOtpRead (s : State) : Host.Outcome State Fault Refusal :=
  runHandler 0x20 (stubProgram s.cfg.stubOtpRead) s

end Sys2Proof.Machine
end

