-- ==== Sys2Proof/Machine/Handlers.lean ====
section
/-! DEFINITION. Which handler runs for which instruction (spec/41_dispatch.md rule R130). -/

namespace Sys2Proof.Machine

/-- The pseudocode of an instruction's handler, from its start. -/
def programOf (cfg : Cfg) : Instr → List Act
  | .getVersion => getVersionProgram cfg
  | .getHelp => getHelpProgram
  | .getChipId => getChipIdProgram
  | .getRdpStatus => stubProgram cfg.stubGetRdpStatus
  | .goToAddr address => goToAddrProgram address
  | .flashErase pageStart pageCount => flashEraseProgram pageStart pageCount
  | .memWrite address payload => memWriteProgram address payload
  | .enRWProtect => enRWProtectProgram
  | .memRead => stubProgram cfg.stubMemRead
  | .readSectorStatus => stubProgram cfg.stubReadSectorStatus
  | .otpRead => stubProgram cfg.stubOtpRead
  | .changeRopLevel => changeRopLevelProgram

/-- Enter the handler of an instruction: `fsm <- S_EXEC(c)`, at the start of its pseudocode (R130). -/
def State.enter (s : State) (i : Instr) : State :=
  s.goOn i.code (programOf s.cfg i)

end Sys2Proof.Machine
end

