-- ==== Sys2Proof/Machine/Dispatch.lean ====
section
/-! DEFINITION. One arm per instruction (spec/41_dispatch.md rule R130). -/

namespace Sys2Proof.Machine

def exec (i : Instr) (s : State) : Host.Outcome State Fault Refusal :=
  match i with
  | .getVersion => Sys2Proof.Machine.execGetVersion s
  | .getHelp => Sys2Proof.Machine.execGetHelp s
  | .getChipId => Sys2Proof.Machine.execGetChipId s
  | .getRdpStatus => Sys2Proof.Machine.execGetRdpStatus s
  | .goToAddr address => Sys2Proof.Machine.execGoToAddr address s
  | .flashErase pageStart pageCount => Sys2Proof.Machine.execFlashErase pageStart pageCount s
  | .memWrite address payload => Sys2Proof.Machine.execMemWrite address payload s
  | .enRWProtect => Sys2Proof.Machine.execEnRWProtect s
  | .memRead => Sys2Proof.Machine.execMemRead s
  | .readSectorStatus => Sys2Proof.Machine.execReadSectorStatus s
  | .otpRead => Sys2Proof.Machine.execOtpRead s
  | .changeRopLevel => Sys2Proof.Machine.execChangeRopLevel s

end Sys2Proof.Machine
end

