-- ==== Sys2Proof/Machine/Fetch.lean ====
section
/-! DEFINITION. The fetch cycle (spec/40_frame.md rules R100 to R108), the unknown codes (spec/41_dispatch.md rules R131, R132),
what the transport answers (spec/10_state.md rule R31), and a reset (spec/70_reset_and_hazards.md rule R291). -/

namespace Sys2Proof.Machine

/-- What a receive of some bytes does with the transport's stream. -/
inductive Received where
  /-- All the bytes came; `rest` is what follows them. -/
  | bytes (bs : List Byte) (rest : List RxItem)
  /-- The receive failed; `rest` is what follows. The bytes that had come are gone with it (R303). -/
  | failed (rest : List RxItem)
  /-- The host has sent too little: the engine waits (R31). -/
  | waiting
  deriving DecidableEq, Repr

/-- Put a byte in front of the bytes received. -/
def Received.push (b : Byte) : Received → Received
  | .bytes bs rest => .bytes (b :: bs) rest
  | .failed rest => .failed rest
  | .waiting => .waiting

/-- Take `n` bytes from the stream (R57, R101, R105). Where the receive has a finite timeout (`mayFail`), a silence ends it;
where it has none, it goes on with the next byte (R303; DESIGN CHOICE, notes/assumptions/5.md). -/
def receive (mayFail : Bool) : Nat → List RxItem → Received
  | 0, items => .bytes [] items
  | _ + 1, [] => .waiting
  | n + 1, .byte b :: items => (receive mayFail n items).push b
  | n + 1, .silence :: items => if mayFail then .failed items else receive mayFail (n + 1) items

/-- S_IDLE, the cycle start (R100): clear the whole buffer, `fsm <- S_RX_LEN`, no event. -/
def State.cycleStart (s : State) : State :=
  { s with buf := [], fsm := .rxLen }

/-- A receive failed (R102, R106): `TX(0xCD); fsm <- S_IDLE`. -/
def State.receiveFailed (s : State) (n : Nat) : State :=
  ((s.emit (.rxReq n .fail)).send Config.nack).toIdle

/-- S_RX_LEN (R101 to R103): one byte, into BUF[0]. Nothing changes while the engine waits
(notes/assumptions/6.md). -/
def State.receiveLength (s : State) : State :=
  match receive s.cfg.rxLenMayFail 1 s.rx with
  | .bytes bs rest =>
    { s.emit (.rxReq 1 (.ok bs)) with rx := rest, buf := s.buf.writeList 0 bs, fsm := .rxBody }
  | .failed rest => { s with rx := rest }.receiveFailed 1
  | .waiting => s

/-- The body has come (R105, R107): `BUF[k] <- dk`, `fsm <- S_DISPATCH`. -/
def State.bodyStored (s : State) (n : Nat) (bs : List Byte) : State :=
  { s.emit (.rxReq n (.ok bs)) with buf := s.buf.writeList 1 bs, fsm := .dispatch }

/-- Bytes of any value, for indexes `i`, `i + 1`, ... (R24; notes/assumptions/12.md). -/
def freeBytes (k i : Nat) : Nat → List Byte
  | 0 => []
  | n + 1 => Config.freeBufByte k i :: freeBytes k (i + 1) n

/-- The body receive failed (R106): NACK; BUF[1 .. N] is then unspecified, hence free (R24). -/
def State.bodyFailed (s : State) (n : Nat) : State :=
  { s.receiveFailed n with buf := s.buf.writeList 1 (freeBytes s.draws 1 n), draws := s.draws + 1 }

/-- S_RX_BODY with N = 0 (R31, R105, D5): RX(0) is issued and takes no byte; whether it answers Ok is drawn. -/
def State.receiveNothing (s : State) : State :=
  let s' := { s with oracle := { s.oracle with rxZero := s.oracle.rxZero.tail }, draws := s.draws + 1 }
  if s.rxZeroAnswer then s'.bodyStored 0 [] else s'.receiveFailed 0

/-- S_RX_BODY (R104 to R107): the capacity check, then RX(N), which takes its N bytes at once or none of them: a reset that
comes while some are missing leaves those that have come in rx, for the next receive (spec/20_memory.md rule R56 leaves it
open; DESIGN CHOICE, notes/assumptions/17.md). -/
def State.receiveBody (s : State) : State :=
  if s.cfg.bufCap < s.frameLen + 1 then s.raise .rxOverflow
  else if s.frameLen = 0 then s.receiveNothing
  else
    match receive s.cfg.rxBodyMayFail s.frameLen s.rx with
    | .bytes bs rest => { s with rx := rest }.bodyStored s.frameLen bs
    | .failed rest => { s with rx := rest }.bodyFailed s.frameLen
    | .waiting => s

/-- An unknown code (R131, R132): nothing, or one NACK, by the policy; no gate; `fsm <- S_IDLE`. -/
def State.unknownCode (s : State) : State :=
  match s.cfg.unknownPolicy with
  | .silent => s.toIdle
  | .nack => (s.send Config.nack).toIdle

/-- A reset, in any state (R291): the command in progress is abandoned, no event is issued, and the engine's registers take the
values of R34; BUF is unspecified after it, hence free. What the host sent and the collaborators' answers are not the
engine's and stay (notes/assumptions/15.md). It falls between whole requests: an FL_ERASE or a RX that a power failure would
cut off has either been answered, with its event in the trace, or not been issued (spec/20_memory.md rule R56 leaves it open;
DESIGN CHOICE, notes/assumptions/17.md). -/
def State.resetFrom (s : State) : State :=
  { s with
    fsm := .idle
    buf := Memory.ofBytes (freeBytes s.draws 0 s.cfg.bufCap)
    crcAcc := s.cfg.crcInit
    flOpen := false
    fault := none
    draws := s.draws + 1 }

/-- The host sends bytes (R120). -/
def State.hostSends (s : State) (bs : List Byte) : State :=
  { s with rx := s.rx ++ bs.map RxItem.byte }

/-- The host is silent until the transport gives up (R102, R106). -/
def State.hostSilent (s : State) : State :=
  { s with rx := s.rx ++ [.silence] }

end Sys2Proof.Machine
end

