-- ==== Sys2Proof/Machine/Step.lean ====
section
/-! DEFINITION. One step of the engine: one transition of its control state (spec/10_state.md rule R20), a handler being run
from its start to its end (spec/41_dispatch.md rule R136). -/

namespace Sys2Proof.Machine

/-- One step. A configuration that fails R8 is refused; after a fault there is no step (R265); after the handoff there is none
either (spec/43_address.md rule R206). From S_DISPATCH the handler of the decoded instruction runs to its end; from S_EXEC(c),
where only `tick` leaves the engine, the rest of the handler does (DESIGN CHOICE, notes/assumptions/7.md; the outcomes of an ended
run: notes/assumptions/8.md). -/
def step (s : State) : Host.Outcome State Fault Refusal :=
  if s.cfg.wf then
    match s.fault with
    | some r => .fault r
    | none =>
      match s.fsm with
      | .idle => .next s.cycleStart
      | .rxLen => .next s.receiveLength
      | .rxBody => .next s.receiveBody
      | .dispatch =>
        match s.instr with
        | .ok i => exec i s
        | .error _ => .next s.unknownCode
      | .exec _ _ => .next s.finish
      | .handoff => .refused .ended
      | .fault => .refused .ended
  else .refused .badConfig

/-- The same machine, one move at a time: from S_DISPATCH only the handler is entered, and in S_EXEC(c) one action of its
pseudocode is performed, so that every position inside a handler (R20) is a state of its own, in which a reset may come
(spec/70_reset_and_hazards.md rule R291). A tick holds at most one request to the collaborators, FL_ERASE and a RX of many
bytes among them, and contains no reset: a reset falls between whole requests. Whether a request is atomic with respect to a
power failure is not in the source (spec/20_memory.md rule R56); that it is here is a DESIGN CHOICE, notes/assumptions/17.md. -/
def tick (s : State) : Host.Outcome State Fault Refusal :=
  if s.cfg.wf then
    match s.fault with
    | some r => .fault r
    | none =>
      match s.fsm with
      | .idle => .next s.cycleStart
      | .rxLen => .next s.receiveLength
      | .rxBody => .next s.receiveBody
      | .dispatch =>
        match s.instr with
        | .ok i => .next (s.enter i)
        | .error _ => .next s.unknownCode
      | .exec _ _ => .next s.advance
      | .handoff => .refused .ended
      | .fault => .refused .ended
  else .refused .badConfig

/-- `n` ticks, stopping at the first stop. -/
def ticks : Nat → State → Host.Outcome State Fault Refusal
  | 0, s => .next s
  | n + 1, s =>
    match tick s with
    | .next s' => ticks n s'
    | .fault r => .fault r
    | .refused r => .refused r

/-- The frame of a table word: the natural frame of the instruction it decodes to, its trailer the CRC of its bytes; for an
unknown code, the frame of that code with no arguments. -/
def tableFrame (cfg : Cfg) (nbits w : Nat) : List Byte :=
  match decode (tableBytes nbits w) with
  | .ok i => encode cfg i
  | .error (.unknownCode code) => sealFrame cfg code []

/-- The state in which the frame of a table word has just been received: the frame in the buffer, S_DISPATCH, and the other
registers as they are there (no fault, scope closed, crc_acc = CRC_INIT). The next step runs the instruction (DESIGN CHOICE, notes/assumptions/14.md). -/
def State.withFetchWord (s : State) (nbits w : Nat) : State :=
  { s with
    fsm := .dispatch
    buf := Memory.ofBytes (tableFrame s.cfg nbits w)
    crcAcc := s.cfg.crcInit
    flOpen := false
    fault := none }

end Sys2Proof.Machine
end

