-- ==== Sys2Proof/Safety.lean ====
section
/-! DEFINITION. The terms the claims use: what the gate does to the trace, the states a gate leaves, the premises of a launch
(spec/70_reset_and_hazards.md rule R292), a run without a fault (spec/60_exceptions.md rule R265), and the invariant of the
engine. -/

namespace Sys2Proof.Machine

/-- The events of feeding bytes to the accumulator from the value `acc` (spec/40_frame.md rule R113). -/
def crcEvents (alg : CrcAlg) (acc : Word) : List Byte → List Event
  | [] => []
  | b :: bs =>
    .crcStep (crcWord b) (crcStep alg acc (crcWord b)) :: crcEvents alg (crcStep alg acc (crcWord b)) bs

/-- The events of a gate that gets past the length check: one CrcStep for each covered byte, then CrcReset (R113, R114). -/
def State.gateEvents (s : State) : List Event :=
  crcEvents s.cfg.crcAlg s.crcAcc s.covered ++ [.crcReset]

/-- The state in which GATE() has returned PASS: only crc_acc and the trace differ (R110). -/
def State.gated (s : State) : State :=
  { s with crcAcc := s.cfg.crcInit, trace := s.trace ++ s.gateEvents }

/-- The state in which a handler has returned after GATE() returned FAIL: one NACK, and back to S_IDLE (R111, R117, R137). -/
def State.nacked (s : State) : State :=
  if s.frameLen < Config.minFrameLen then (s.send Config.nack).toIdle
  else (s.gated.send Config.nack).toIdle

/-- The state after some bytes have been sent (R53). -/
def State.sent (s : State) (bs : List Byte) : State :=
  { s with trace := s.trace ++ bs.map Event.tx }

/-- The state of a handler that passed its gate, sent some bytes and returned (R110, R53, R137). -/
def State.replied (s : State) (bs : List Byte) : State :=
  (s.gated.sent bs).toIdle

/-- The answer the `j`-th FL_PROG from now on gets, `j` counted from 0, if only FL_PROGs are issued until then. -/
def State.progAnswerAt (s : State) (j : Nat) : Status :=
  s.oracle.prog.getD j (Config.freeProg (s.draws + j))

/-- The byte loop of PROGRAM, as the pseudocode of spec/42_flash.md rule R171 has it, and whether every byte was programmed. -/
def State.programBytes (s : State) (a : Word) : List Byte → State × Bool
  | [] => (s, true)
  | b :: bs =>
    if s.progAnswer = .ok then (s.flProg a b).programBytes (a + 1) bs
    else (s.flProg a b, false)

/-- PROGRAM(a, data), as the pseudocode of R171 has it: the state it leaves and the write status it returns. -/
def State.program (s : State) (a : Word) (data : List Byte) : State × Byte :=
  if s.unlockAnswer = .ok then
    match s.flUnlock.programBytes a data with
    | (u, true) => (u.flLock, if u.lockAnswer = .ok then s.cfg.stWriteOk else s.cfg.stWriteFail)
    | (u, false) => (u.flLock, s.cfg.stWriteFail)
  else ({ s.flUnlock with flOpen := false }, s.cfg.stWriteFail)

/-- The events of programming bytes from address `a` on, every one of them with the answer OK (R173). -/
def progEvents (a : Word) : List Byte → List Event
  | [] => []
  | b :: bs => .flProg a b .ok :: progEvents (a + 1) bs

/-- ERASE's requests for a configuration that passed the checks (R166): the state they leave. -/
def State.erased (s : State) (c : EraseCfg) : State :=
  (s.flUnlock.flErase c).flLock

/-- A flash request (spec/42_flash.md rule R179). -/
def Event.isFlash : Event → Bool
  | .flUnlock _ => true
  | .flErase _ _ _ => true
  | .flProg _ _ _ => true
  | .flLock _ => true
  | _ => false

/-- An FL_ERASE. -/
def Event.isErase : Event → Bool
  | .flErase _ _ _ => true
  | _ => false

/-- An FL_PROG. -/
def Event.isProg : Event → Bool
  | .flProg _ _ _ => true
  | _ => false

/-- A request that may stand inside an open flash scope, or close it (R296). -/
def Event.inScope : Event → Bool
  | .flErase _ _ _ => true
  | .flProg _ _ _ => true
  | .flLock _ => true
  | _ => false

/-- An FL_PROG that was answered OK. -/
def Event.isGoodProg : Event → Bool
  | .flProg _ _ .ok => true
  | _ => false

/-- An FL_UNLOCK. -/
def Event.isUnlock : Event → Bool
  | .flUnlock _ => true
  | _ => false

/-- An FL_LOCK. -/
def Event.isLock : Event → Bool
  | .flLock _ => true
  | _ => false

/-- The frame in the buffer is inside the buffer: what the capacity check of R104 has established when a handler runs. -/
def State.frameFits (s : State) : Prop :=
  s.frameLen < s.cfg.bufCap

/-- What stands around the engine at a launch and is no state of it (R292; the controller's lock: spec/10_state.md rule
R27). -/
structure Surroundings where
  /-- Whether the flash controller's interface is locked. -/
  controllerLocked : Bool
  /-- The frame the host sends first: its length byte and its body. -/
  firstFrame : List Byte
  deriving DecidableEq, Repr

/-- A length byte N and N bytes after it: how the byte sequence is read (spec/40_frame.md rule R108). -/
def isFrame : List Byte → Bool
  | [] => false
  | n :: body => decide (body.length = n.toNat)

/-- The bytes among what the transport delivers. -/
def bytesOf : List RxItem → List Byte
  | [] => []
  | .byte b :: items => b :: bytesOf items
  | .silence :: items => bytesOf items

/-- The next byte the transport delivers is the length byte of `frame`, and what it has delivered so far is that frame from
there on, or the beginning of it (R292 (c), R108). -/
def State.alignedTo (s : State) (frame : List Byte) : Prop :=
  isFrame frame = true ∧ (bytesOf s.rx <+: frame ∨ frame <+: bytesOf s.rx)

/-- The launch premises (R292), all four by name, of the engine's state and of what stands around it. The engine never reads
the controller's lock (R27), so no step depends on (b) (notes/assumptions/10.md). -/
structure State.Launched (s : State) (around : Surroundings) : Prop where
  /-- (a) The accumulator holds CRC_INIT. -/
  crc : s.crcAcc = s.cfg.crcInit
  /-- (b) The flash controller's interface is locked. -/
  locked : around.controllerLocked = true
  /-- (c) The next byte the transport delivers is the length byte of a frame. -/
  aligned : s.alignedTo around.firstFrame
  /-- (d) The configuration meets R8. -/
  cfg : s.cfg.wf = true

/-- No fault has been raised (R265): the premise of every claim about a run. -/
def State.faultFree (s : State) : Prop :=
  ∀ r, Event.fault r ∉ s.trace

/-- An action that is performed while the flash scope is open (spec/42_flash.md rule R180). -/
def Act.inScope : Act → Bool
  | .eraseRun _ => true
  | .eraseLock _ => true
  | .progByte _ _ _ => true
  | .progLock => true
  | .progAbort => true
  | _ => false

/-- An action that is performed while a gate uses the accumulator (spec/70_reset_and_hazards.md rule R295). -/
def Act.inGate : Act → Bool
  | .feed _ => true
  | .crcReset => true
  | _ => false

/-- The actions the handler of a code may perform (R179 and the handlers' pseudocode), a handoff only to the target of an address
that was valid (spec/10_state.md rule R20, spec/43_address.md rule R203). -/
def Act.allowedIn (cfg : Cfg) (code : Byte) : Act → Bool
  | .gate => true
  | .feed _ => true
  | .crcReset => true
  | .compare _ => true
  | .tx _ => true
  | .readId => decide (code = 0x12)
  | .readOpt => decide (code = 0x17)
  | .goTo _ => decide (code = 0x14)
  | .handoff target => decide (code = 0x14) && validate cfg (target - 1)
  | .erase _ _ => decide (code = 0x15)
  | .eraseUnlock _ => decide (code = 0x15)
  | .eraseRun _ => decide (code = 0x15)
  | .eraseLock _ => decide (code = 0x15)
  | .write _ _ => decide (code = 0x16)
  | .progUnlock _ _ => decide (code = 0x16)
  | .progByte _ _ _ => decide (code = 0x16)
  | .progLock => decide (code = 0x16)
  | .progAbort => decide (code = 0x16)

/-- The last index of the frame buffer an action's pseudocode reads, where it reads the buffer (spec/40_frame.md rule R110,
spec/42_flash.md rule R170): BUF[0] for the length check, the covered byte, the last byte of the trailer, the last payload
byte of a MemWrite with a valid address. -/
def Act.lastRead (s : State) : Act → Option Nat
  | .gate => some 0
  | .feed i => some i
  | .crcReset => none
  | .compare _ => some (s.frameLen - 3 + 3)
  | .tx _ => none
  | .readId => none
  | .readOpt => none
  | .goTo _ => none
  | .handoff _ => none
  | .erase _ _ => none
  | .eraseUnlock _ => none
  | .eraseRun _ => none
  | .eraseLock _ => none
  | .write address payload => if validate s.cfg address then some (6 + payload.length) else none
  | .progUnlock _ _ => none
  | .progByte _ _ _ => none
  | .progLock => none
  | .progAbort => none

/-- Whether the first action left is performed with the scope open. -/
def headInScope : List Act → Bool
  | [] => false
  | a :: _ => a.inScope

/-- Whether the first action left is performed while the gate uses the accumulator. -/
def headInGate : List Act → Bool
  | [] => false
  | a :: _ => a.inGate

/-- A position inside the handler of `code` that the pseudocode has: only its first action may be inside the flash scope or
inside the gate's use of the accumulator, and all of them are the handler's own. -/
def positionOk (cfg : Cfg) (code : Byte) (todo : List Act) : Bool :=
  todo.all (Act.allowedIn cfg code) && todo.tail.all fun a => !a.inScope && !a.inGate

/-- Whether fl_open is set at a control state (R26, R180): only in S_EXEC, and there as its position says. -/
def Fsm.scopeOpen : Fsm → Bool
  | .exec _ todo => headInScope todo
  | _ => false

/-- Whether the accumulator may hold something else than CRC_INIT at a control state (R295). -/
def Fsm.crcBusy : Fsm → Bool
  | .exec _ todo => headInGate todo
  | .fault => true
  | _ => false

/-- What the buffer holds at a control state (R23, R100, R103): nothing before the length byte has come, the length byte before
the body has come, the frame and nothing beyond it while a handler runs. -/
def State.bufferOk (s : State) : Prop :=
  match s.fsm with
  | .rxLen => s.buf = []
  | .rxBody => s.buf.within 1 = true
  | .dispatch => s.frameFits ∧ s.buf.within (s.frameLen + 1) = true
  | .exec code _ => s.frameFits ∧ s.buf.within (s.frameLen + 1) = true ∧ s.buf.read 1 = code
  | _ => True

/-- The invariant of the engine: from every state that has it, a step or a tick gives a state that has it. -/
structure State.Inv (s : State) : Prop where
  /-- The configuration meets R8. -/
  cfg : s.cfg.wf = true
  /-- The buffer has its canonical form. -/
  canonical : s.buf.wf = true
  /-- No byte is stored past the buffer's end (R21). -/
  within : s.buf.within s.cfg.bufCap = true
  /-- The buffer holds what was received (R23). -/
  buffer : s.bufferOk
  /-- crc_acc = CRC_INIT outside the gate (R295). -/
  crc : s.fsm.crcBusy = false → s.crcAcc = s.cfg.crcInit
  /-- fl_open is set exactly inside the flash scope (R26, R180). -/
  scope : s.flOpen = s.fsm.scopeOpen
  /-- The position inside the handler is one the pseudocode has; a handoff is left only for a valid address (R20). -/
  position : ∀ code todo, s.fsm = .exec code todo → positionOk s.cfg code todo = true
  /-- A fault is recorded exactly in S_FAULT (R32). -/
  fault : s.fault.isSome = true ↔ s.fsm = .fault

end Sys2Proof.Machine
end

