-- ==== Sys2Proof/Certificates/Slice0/Obligations.lean ====
section
/-! DEFINITION. The statements for the provers. `s.frameFits` is the capacity check of spec/40_frame.md rule R104, which has been
made before any handler runs; it is part of the invariant `State.Inv`. A statement about a collaborator's answer holds for
every answer: `s.unlockAnswer` and the like are whatever the state's lists, or the free values of Config, give. -/

open Sys2Proof Sys2Proof.Machine

/-! ### Encoding and dispatch -/

/-- R130, R136. In S_DISPATCH the code is BUF[1]; a known code enters its handler, and a step runs that handler to its end:
the step is `exec` of the decoded instruction, nothing added; dispatching itself, which is the tick, changes only fsm.
Otherwise the unknown-code rule applies. That a step runs the whole handler, where R20 has entering it as a transition of its
own, is the model's choice of grain (notes/assumptions/7.md). -/
def Obligations.StepRunsDecodedInstruction : Prop :=
  ∀ s : State, s.cfg.wf = true → s.fault = none → s.fsm = .dispatch →
    (∀ i, decodeFrom s.buf.read = .ok i →
      i.code = s.buf.read 1 ∧ step s = exec i s ∧
        tick s = .next { s with fsm := .exec (s.buf.read 1) (programOf s.cfg i) }) ∧
    (s.buf.read 1 ∈ [(0x10 : Byte), 0x11, 0x12, 0x13, 0x14, 0x15, 0x16, 0x17, 0x18, 0x19, 0x20, 0x21] →
      ∃ i, decodeFrom s.buf.read = .ok i) ∧
    (s.buf.read 1 ∉ [(0x10 : Byte), 0x11, 0x12, 0x13, 0x14, 0x15, 0x16, 0x17, 0x18, 0x19, 0x20, 0x21] →
      step s = .next s.unknownCode ∧ tick s = .next s.unknownCode)

/-- R131. Under SILENT an unknown code is answered with nothing: no event, no gate, back to S_IDLE. -/
def Obligations.UnknownCodeSilent : Prop :=
  ∀ s : State, s.cfg.wf = true → s.fault = none → s.fsm = .dispatch → s.cfg.unknownPolicy = .silent →
    s.buf.read 1 ∉ helpTable → step s = .next { s with fsm := .idle }

/-- R132. Under NACK an unknown code is answered with 0xCD, without a gate, and the engine goes back to S_IDLE. The spec's
own choice (decision D10). -/
def Obligations.UnknownCodeNacked : Prop :=
  ∀ s : State, s.cfg.wf = true → s.fault = none → s.fsm = .dispatch → s.cfg.unknownPolicy = .nack →
    s.buf.read 1 ∉ helpTable → step s = .next { s with fsm := .idle, trace := s.trace ++ [.tx 0xCD] }

/-- R77 (and the other 244 values of R84). The whole byte 1 selects the command: each of the twelve codes its own, whatever
the other bytes are; every other value is an unknown code. -/
def Obligations.TwelveCommandCodes : Prop :=
  ∀ rd : Nat → Byte,
    (∀ p ∈ [((0x10 : Byte), Instr.getVersion), (0x11, .getHelp), (0x12, .getChipId), (0x13, .getRdpStatus),
        (0x17, .enRWProtect), (0x18, .memRead), (0x19, .readSectorStatus), (0x20, .otpRead), (0x21, .changeRopLevel)],
      rd 1 = p.1 → decodeFrom rd = .ok p.2) ∧
    (rd 1 = 0x14 → ∃ a, decodeFrom rd = .ok (.goToAddr a)) ∧
    (rd 1 = 0x15 → ∃ ps pc, decodeFrom rd = .ok (.flashErase ps pc)) ∧
    (rd 1 = 0x16 → ∃ a p, decodeFrom rd = .ok (.memWrite a p)) ∧
    (rd 1 ∉ [(0x10 : Byte), 0x11, 0x12, 0x13, 0x14, 0x15, 0x16, 0x17, 0x18, 0x19, 0x20, 0x21] →
      decodeFrom rd = .error (.unknownCode (rd 1)))

/-- R78. The operands stand at fixed offsets, whatever N is: bit `8 k + b` of an address is bit `b` of BUF[2 + k];
page_start is BUF[2] and page_count BUF[3]; the payload is the BUF[6] bytes from BUF[7] on. -/
def Obligations.OperandsAtFixedOffsets : Prop :=
  ∀ rd : Nat → Byte,
    (rd 1 = 0x14 → ∃ a, decodeFrom rd = .ok (.goToAddr a) ∧
      ∀ k b, k < 4 → b < 8 → a.getLsbD (8 * k + b) = (rd (2 + k)).getLsbD b) ∧
    (rd 1 = 0x15 → decodeFrom rd = .ok (.flashErase (rd 2) (rd 3))) ∧
    (rd 1 = 0x16 → ∃ a p, decodeFrom rd = .ok (.memWrite a p) ∧
      (∀ k b, k < 4 → b < 8 → a.getLsbD (8 * k + b) = (rd (2 + k)).getLsbD b) ∧
      p.length = (rd 6).toNat ∧ ∀ j, j < p.length → p[j]? = some (rd (7 + j)))

/-- The frames of spec/95_test_vectors.md, written out byte by byte, decode to the instructions they stand for. -/
def Obligations.SpecFramesDecode : Prop :=
  decode [0x05, 0x10, 0x27, 0x84, 0xEC, 0x4C] = .ok .getVersion ∧
  decode [0x05, 0x11, 0x90, 0x99, 0x2D, 0x48] = .ok .getHelp ∧
  decode [0x09, 0x14, 0x00, 0x80, 0x00, 0x08, 0xE7, 0x68, 0xC3, 0xCB] = .ok (.goToAddr 0x08008000) ∧
  decode [0x07, 0x15, 0x10, 0x04, 0x97, 0xFD, 0x00, 0x78] = .ok (.flashErase 0x10 0x04) ∧
  decode [0x0E, 0x16, 0x00, 0x80, 0x00, 0x08, 0x04, 0xDE, 0xAD, 0xBE, 0xEF, 0xC8, 0x6C, 0xD5, 0xBA] =
    .ok (.memWrite 0x08008000 [0xDE, 0xAD, 0xBE, 0xEF]) ∧
  decode [0x05, 0x22, 0xD9, 0xD2, 0x5C, 0x91] = .error (.unknownCode 0x22)

/-- Decoding the frame of a well-formed instruction gives it back, with every operand at every value, whatever the CRC. -/
def Obligations.DecodeEncodeRoundTrip : Prop :=
  ∀ (cfg : Cfg) (i : Instr), i.wellFormed = true → decode (encode cfg i) = .ok i

/-- R79. The natural frame length of each command, which is the frame's first byte and one less than its number of bytes.
The spec derives R79 from R71 and R78. -/
def Obligations.NaturalFrameLengths : Prop :=
  ∀ cfg : Cfg,
    (∀ i ∈ [Instr.getVersion, .getHelp, .getChipId, .getRdpStatus, .enRWProtect, .memRead, .readSectorStatus, .otpRead,
        .changeRopLevel], (encode cfg i)[0]? = some 5 ∧ (encode cfg i).length = 6) ∧
    (∀ a, (encode cfg (.goToAddr a))[0]? = some 9 ∧ (encode cfg (.goToAddr a)).length = 10) ∧
    (∀ ps pc, (encode cfg (.flashErase ps pc))[0]? = some 7 ∧ (encode cfg (.flashErase ps pc)).length = 8) ∧
    (∀ a p, (Instr.memWrite a p).wellFormed = true →
      (encode cfg (.memWrite a p))[0]? = some (BitVec.ofNat 8 (10 + p.length)) ∧ 10 + p.length < 256 ∧
        (encode cfg (.memWrite a p)).length = 11 + p.length)

/-- The frame of a well-formed instruction passes the gate, with any CRC parameters, when the accumulator starts at
CRC_INIT. -/
def Obligations.EncodedFramePassesGate : Prop :=
  ∀ (s : State) (i : Instr), i.wellFormed = true → s.crcAcc = s.cfg.crcInit →
    (∀ k, s.buf.read k = (encode s.cfg i).getD k 0) → s.gatePasses = true

/-! ### The CRC -/

/-- R7. The default CRC_STEP: XOR, then 32 times a shift that folds the polynomial in when bit 31 was set; and its check
values. PRESUMED: the spec marks R7 as general knowledge (notes/assumptions/2.md). -/
def Obligations.DefaultCrcStep : Prop :=
  (∀ acc w : Word, crcStep .stm32 acc w =
    (fun v : Word => if v.getLsbD 31 then (v <<< 1) ^^^ 0x04C11DB7 else v <<< 1)^[32] (acc ^^^ w)) ∧
  crcStep .stm32 0xFFFFFFFF 0x12345678 = 0xDF8A8A2B ∧
  crcStep .stm32 0xFFFFFFFF 0x00000000 = 0xC704DD7B

/-- R119. Under the default CRC, a frame that passes the gate fails it after one bit of BUF[1 .. N] has been flipped. The
spec derives R119 from R113, R116 and the default polynomial. -/
def Obligations.SingleBitCorruptionFailsGate : Prop :=
  ∀ (s s' : State) (k b : Nat), s.cfg.crcAlg = .stm32 → s'.cfg = s.cfg → s'.crcAcc = s.crcAcc →
    s.gatePasses = true → 1 ≤ k → k ≤ s.frameLen → b < 8 →
    (∀ j, s'.buf.read j = if j = k then s.buf.read k ^^^ BitVec.twoPow 8 b else s.buf.read j) →
    s'.gatePasses = false

/-! ### The fetch cycle -/

/-- R100. The cycle start: every byte of the buffer is cleared, fsm becomes S_RX_LEN, no event is issued, nothing else
changes. -/
def Obligations.CycleStartClearsBuffer : Prop :=
  ∀ s : State, s.cfg.wf = true → s.fault = none → s.fsm = .idle →
    ∃ m : Memory, step s = .next { s with fsm := .rxLen, buf := m } ∧ ∀ k, m.read k = 0

/-- R103. A length byte is stored in BUF[0] unchecked; every other byte of the buffer stays. -/
def Obligations.LengthByteStored : Prop :=
  ∀ (s : State) (b : Byte) (rest : List RxItem), s.cfg.wf = true → s.fault = none → s.fsm = .rxLen → s.buf.wf = true →
    s.rx = .byte b :: rest →
    ∃ m : Memory, step s =
        .next { s with fsm := .rxBody, rx := rest, buf := m, trace := s.trace ++ [.rxReq 1 (.ok [b])] } ∧
      m.read 0 = b ∧ ∀ k, k ≠ 0 → m.read k = s.buf.read k

/-- R102. A failed length receive: one NACK, S_IDLE, and the buffer is not touched. R31: RX(1) answers Fail only where
RX_LEN_MAY_FAIL is set; where it is not, whatever the transport delivers, the length byte is stored or the engine waits: it
is stored when a byte has come, whatever silences stand before it, and the engine waits when none has (R303, R120). The range
of the answers is the spec's own choice (decision D4); that a failure is a silence in rx, which it uses up, and that a
receive without a timeout takes no notice of one, is the model's (notes/assumptions/5.md), and so is the form of a wait
(notes/assumptions/6.md). -/
def Obligations.LengthReceiveFails : Prop :=
  ∀ s : State, s.cfg.wf = true → s.fault = none → s.fsm = .rxLen →
    (∀ rest : List RxItem, s.cfg.rxLenMayFail = true → s.rx = .silence :: rest →
      step s = .next { s with fsm := .idle, rx := rest, trace := s.trace ++ [.rxReq 1 .fail, .tx 0xCD] }) ∧
    (s.cfg.rxLenMayFail = false →
      (∃ t evs, step s = .next t ∧ t.trace = s.trace ++ evs ∧ (∀ n, Event.rxReq n .fail ∉ evs) ∧ Event.tx 0xCD ∉ evs ∧
        (t.fsm = .rxBody ∨ t = s)) ∧
      (∀ (quiet : List RxItem) (b : Byte) (rest : List RxItem), s.buf.wf = true → bytesOf quiet = [] →
        s.rx = quiet ++ .byte b :: rest →
        ∃ m : Memory, step s =
            .next { s with fsm := .rxBody, rx := rest, buf := m, trace := s.trace ++ [.rxReq 1 (.ok [b])] } ∧
          m.read 0 = b ∧ ∀ k, k ≠ 0 → m.read k = s.buf.read k) ∧
      (bytesOf s.rx = [] → step s = .next s))

/-- R104, R263. A frame that does not fit raises RX_OVERFLOW before any body receive, and the engine stops in S_FAULT. The
spec's own choice (decisions D2, D3). That the step after it answers `Outcome.fault` is the model's choice
(notes/assumptions/8.md). -/
def Obligations.OverlongFrameFaults : Prop :=
  ∀ s : State, s.cfg.wf = true → s.fault = none → s.fsm = .rxBody → s.cfg.bufCap < s.frameLen + 1 →
    ∃ t, step s = .next t ∧
      t = { s with fsm := .fault, fault := some .rxOverflow, trace := s.trace ++ [.fault .rxOverflow] } ∧
      step t = .fault .rxOverflow

/-- R105, R107. The body: byte `k` (from 1 on) goes to BUF[k], every other byte stays, and fsm becomes S_DISPATCH; a request
with N = 0 is still issued, as RX(0), and goes to S_DISPATCH if it is answered Ok. RX(0) and its answers are the spec's own
choice (decision D5). -/
def Obligations.BodyStored : Prop :=
  ∀ s : State, s.cfg.wf = true → s.fault = none → s.fsm = .rxBody → s.buf.wf = true → s.frameFits →
    (∀ (bs : List Byte) (rest : List RxItem), s.frameLen ≠ 0 → bs.length = s.frameLen →
      s.rx = bs.map .byte ++ rest →
      ∃ m : Memory, step s =
          .next { s with
            fsm := .dispatch, rx := rest, buf := m, trace := s.trace ++ [.rxReq s.frameLen (.ok bs)] } ∧
        (∀ k, 1 ≤ k → k ≤ s.frameLen → bs[k - 1]? = some (m.read k)) ∧
        ∀ k, (k = 0 ∨ s.frameLen < k) → m.read k = s.buf.read k) ∧
    (s.frameLen = 0 → s.rxZeroAnswer = true →
      step s = .next { s with
        fsm := .dispatch
        trace := s.trace ++ [.rxReq 0 (.ok [])]
        oracle := { s.oracle with rxZero := s.oracle.rxZero.tail }
        draws := s.draws + 1 })

/-- R106. A failed body receive: one NACK, S_IDLE, no command executes. BUF[1 .. N] may hold anything then (R24): nothing is
said of it; every other byte stays. The first clause: fewer than N bytes came before the transport gave up; that they are
used up with the silence is the model's choice (notes/assumptions/5.md). The second: N = 0, where RX(0) may answer Fail
whatever the parameters; the spec's own choice (decision D5). The third (R31): for N at least 1, RX(N) answers Fail only
where RX_BODY_MAY_FAIL is set; where it is not, whatever the transport delivers, the body is stored or the engine waits: it
is stored when N bytes have come, whatever silences stand before and among them, and the engine waits when fewer have (R303,
R120). The range of the answers is the spec's own choice (decision D4); that such a receive takes no notice of a silence is
the model's (notes/assumptions/5.md), and so is the form of a wait (notes/assumptions/6.md). -/
def Obligations.BodyReceiveFails : Prop :=
  ∀ s : State, s.cfg.wf = true → s.fault = none → s.fsm = .rxBody → s.buf.wf = true → s.frameFits →
    (∀ (bs : List Byte) (rest : List RxItem), bs.length < s.frameLen → s.cfg.rxBodyMayFail = true →
      s.rx = bs.map .byte ++ .silence :: rest →
      ∃ m : Memory, ∃ d : Nat, step s =
          .next { s with
            fsm := .idle, rx := rest, buf := m, draws := d
            trace := s.trace ++ [.rxReq s.frameLen .fail, .tx 0xCD] } ∧
        ∀ k, (k = 0 ∨ s.frameLen < k) → m.read k = s.buf.read k) ∧
    (s.frameLen = 0 → s.rxZeroAnswer = false →
      step s = .next { s with
        fsm := .idle
        trace := s.trace ++ [.rxReq 0 .fail, .tx 0xCD]
        oracle := { s.oracle with rxZero := s.oracle.rxZero.tail }
        draws := s.draws + 1 }) ∧
    (s.frameLen ≠ 0 → s.cfg.rxBodyMayFail = false →
      (∃ t evs, step s = .next t ∧ t.trace = s.trace ++ evs ∧ (∀ n, Event.rxReq n .fail ∉ evs) ∧ Event.tx 0xCD ∉ evs ∧
        (t.fsm = .dispatch ∨ t = s)) ∧
      (∀ (pre : List RxItem) (b : Byte) (rest : List RxItem), (bytesOf pre).length + 1 = s.frameLen →
        s.rx = pre ++ .byte b :: rest →
        ∃ m : Memory, step s =
            .next { s with
              fsm := .dispatch, rx := rest, buf := m
              trace := s.trace ++ [.rxReq s.frameLen (.ok (bytesOf pre ++ [b]))] } ∧
          (∀ k, 1 ≤ k → k ≤ s.frameLen → (bytesOf pre ++ [b])[k - 1]? = some (m.read k)) ∧
          ∀ k, (k = 0 ∨ s.frameLen < k) → m.read k = s.buf.read k) ∧
      ((bytesOf s.rx).length < s.frameLen → step s = .next s))

/-- A receive that the host has not yet answered is a wait: nothing changes (R31, R120). That a wait is an unchanged state
is the model's choice (notes/assumptions/6.md). -/
def Obligations.ReceiveWaitsForHost : Prop :=
  ∀ (s : State) (bs : List Byte), s.cfg.wf = true → s.fault = none → s.rx = bs.map .byte →
    ((s.fsm = .rxLen ∧ bs = []) ∨ (s.fsm = .rxBody ∧ s.frameFits ∧ bs.length < s.frameLen)) →
    step s = .next s

/-! ### The gate -/

/-- R118. In every handler the gate is the first action: on FAIL the handler has only sent one NACK and returned; on PASS
the rest of the handler runs, from a state in which only crc_acc and the trace have changed. -/
def Obligations.EveryHandlerGatesFirst : Prop :=
  ∀ (i : Instr) (s : State), s.frameFits →
    ∃ rest, programOf s.cfg i = .gate :: rest ∧
      (s.gatePasses = false → exec i s = .next s.nacked) ∧
      (s.gatePasses = true → exec i s = .next (s.gated.goOn i.code rest).finish)

/-- R111. In every handler a frame with N < 5 is NACKed, and the accumulator is not touched. The spec's own choice (decision
D7). -/
def Obligations.ShortFrameNacked : Prop :=
  ∀ (i : Instr) (s : State), s.frameFits → s.frameLen < 5 →
    exec i s = .next { s with fsm := .idle, trace := s.trace ++ [.tx 0xCD] }

/-- R113, R114, R117. In every handler a CRC mismatch gives: one CrcStep for each covered byte in order, with the word
zext_32(BUF[k]) and the accumulator's new value, then CrcReset, one NACK, and nothing else. `running j` is the accumulator
after the first `j` covered bytes. The zero extension is the spec's own choice (decision D8). -/
def Obligations.CrcMismatchNacked : Prop :=
  ∀ (i : Instr) (s : State), s.frameFits → 5 ≤ s.frameLen →
    let running : Nat → Word := fun j =>
      (List.range j).foldl (fun acc k => crcStep s.cfg.crcAlg acc ((s.buf.read k).zeroExtend 32)) s.crcAcc
    running (s.frameLen - 3) ≠ le32At s.buf.read (s.frameLen - 3) →
    exec i s = .next { s with
      fsm := .idle
      crcAcc := s.cfg.crcInit
      trace := s.trace ++
        (List.range (s.frameLen - 3)).map (fun k => .crcStep ((s.buf.read k).zeroExtend 32) (running (k + 1))) ++
        [.crcReset, .tx 0xCD] }

/-! ### The identity commands -/

/-- R133. GetVersion. -/
def Obligations.GetVersionReplies : Prop :=
  ∀ s : State, s.frameFits →
    (s.gatePasses = true →
      exec .getVersion s = .next { s with
        fsm := .idle
        crcAcc := s.cfg.crcInit
        trace := s.trace ++ s.gateEvents ++
          [.tx 0xAB, .tx 0x04, .tx s.cfg.version0, .tx s.cfg.version1, .tx s.cfg.version2, .tx s.cfg.version3] }) ∧
    (s.gatePasses = false → exec .getVersion s = .next s.nacked)

/-- R134, R82. GetHelp. The order of the twelve bytes is the spec's own choice (decision D13). -/
def Obligations.GetHelpReplies : Prop :=
  ∀ s : State, s.frameFits →
    (s.gatePasses = true →
      exec .getHelp s = .next { s with
        fsm := .idle
        crcAcc := s.cfg.crcInit
        trace := s.trace ++ s.gateEvents ++
          [.tx 0xAB, .tx 0x0C, .tx 0x10, .tx 0x11, .tx 0x12, .tx 0x13, .tx 0x14, .tx 0x15, .tx 0x16, .tx 0x17,
            .tx 0x18, .tx 0x19, .tx 0x20, .tx 0x21] }) ∧
    (s.gatePasses = false → exec .getHelp s = .next s.nacked)

/-- R135, R75, R52. GetChipId: after the gate the register is read; its bits 7 to 0 and then its bits 11 to 8 are sent, with
no ACK. That the low byte goes first is the spec's own choice (decision D23). -/
def Obligations.GetChipIdReplies : Prop :=
  ∀ s : State, s.frameFits →
    (s.gatePasses = true →
      exec .getChipId s = .next { s with
        fsm := .idle
        crcAcc := s.cfg.crcInit
        trace := s.trace ++ s.gateEvents ++
          [.idRead s.idAnswer, .tx (s.idAnswer.extractLsb' 0 8), .tx ((s.idAnswer.extractLsb' 8 4).zeroExtend 8)]
        oracle := { s.oracle with ident := s.oracle.ident.tail }
        draws := s.draws + 1 }) ∧
    (s.gatePasses = false → exec .getChipId s = .next s.nacked)

/-! ### The protection and stub commands -/

/-- R236 (R230, R232, R233, R234). The four stubs. The reply is the spec's own choice (decision D14). -/
def Obligations.StubsReply : Prop :=
  ∀ s : State, s.frameFits →
    ∀ p ∈ [(Instr.getRdpStatus, s.cfg.stubGetRdpStatus), (.memRead, s.cfg.stubMemRead),
        (.readSectorStatus, s.cfg.stubReadSectorStatus), (.otpRead, s.cfg.stubOtpRead)],
      (s.gatePasses = true →
        exec p.1 s = .next { s with
          fsm := .idle
          crcAcc := s.cfg.crcInit
          trace := s.trace ++ s.gateEvents ++ [.tx 0xAB, .tx 0x01, .tx p.2] }) ∧
      (s.gatePasses = false → exec p.1 s = .next s.nacked)

/-- R231. EnRWProtect: the ACK, then the option-byte read, then the byte as read. -/
def Obligations.EnRWProtectReports : Prop :=
  ∀ s : State, s.frameFits →
    (s.gatePasses = true →
      exec .enRWProtect s = .next { s with
        fsm := .idle
        crcAcc := s.cfg.crcInit
        trace := s.trace ++ s.gateEvents ++ [.tx 0xAB, .tx 0x01, .optRead s.optAnswer, .tx s.optAnswer]
        oracle := { s.oracle with opt := s.oracle.opt.tail }
        draws := s.draws + 1 }) ∧
    (s.gatePasses = false → exec .enRWProtect s = .next s.nacked)

/-- R235. ChangeRopLevel: the ACK and no payload byte. The spec's own choice (decision D15). -/
def Obligations.ChangeRopLevelAcks : Prop :=
  ∀ s : State, s.frameFits →
    (s.gatePasses = true →
      exec .changeRopLevel s = .next { s with
        fsm := .idle
        crcAcc := s.cfg.crcInit
        trace := s.trace ++ s.gateEvents ++ [.tx 0xAB, .tx 0x01] }) ∧
    (s.gatePasses = false → exec .changeRopLevel s = .next s.nacked)

/-! ### The address validator and GoToAddr -/

/-- R200. An address is valid exactly when it lies in one of the two windows, inclusive, compared as unsigned numbers. -/
def Obligations.ValidateIsWindowMembership : Prop :=
  ∀ (cfg : Cfg) (a : Word), validate cfg a = true ↔
    (cfg.sramBase.toNat ≤ a.toNat ∧ a.toNat ≤ cfg.sramEnd.toNat) ∨
      (cfg.flashBase.toNat ≤ a.toNat ∧ a.toNat ≤ cfg.flashEnd.toNat)

/-- R202. The bounds of each window are valid; the address just outside a bound is invalid unless it lies in the other
window. The spec derives R202 from R200. -/
def Obligations.WindowBoundaries : Prop :=
  ∀ cfg : Cfg, cfg.wf = true →
    ∀ w ∈ [((cfg.sramBase, cfg.sramEnd), (cfg.flashBase, cfg.flashEnd)),
        ((cfg.flashBase, cfg.flashEnd), (cfg.sramBase, cfg.sramEnd))],
      validate cfg w.1.1 = true ∧ validate cfg w.1.2 = true ∧
      (w.1.1 ≠ 0 → ¬ (w.2.1 ≤ w.1.1 - 1 ∧ w.1.1 - 1 ≤ w.2.2) → validate cfg (w.1.1 - 1) = false) ∧
      (w.1.2 ≠ 0xFFFFFFFF → ¬ (w.2.1 ≤ w.1.2 + 1 ∧ w.1.2 + 1 ≤ w.2.2) → validate cfg (w.1.2 + 1) = false)

/-- R203, R204, R206. GoToAddr with a valid address: the validity byte, then the handoff to address + 1 (mod 2^32), and
S_HANDOFF, in which there is no further step. That the target is an addition is the spec's own choice (decision D24). -/
def Obligations.GoToAddrHandsOff : Prop :=
  ∀ (s : State) (a : Word), s.frameFits → s.gatePasses = true → validate s.cfg a = true →
    exec (.goToAddr a) s = .next { s with
      fsm := .handoff
      crcAcc := s.cfg.crcInit
      trace := s.trace ++ s.gateEvents ++
        [.tx 0xAB, .tx 0x01, .tx s.cfg.stAddrValid, .handoff (BitVec.ofNat 32 (a.toNat + 1))] }

/-- R205. GoToAddr with an invalid address: ST_ADDR_INVALID, no handoff, S_IDLE. -/
def Obligations.GoToAddrInvalid : Prop :=
  ∀ (s : State) (a : Word), s.frameFits → s.gatePasses = true → validate s.cfg a = false →
    exec (.goToAddr a) s = .next { s with
      fsm := .idle
      crcAcc := s.cfg.crcInit
      trace := s.trace ++ s.gateEvents ++ [.tx 0xAB, .tx 0x01, .tx s.cfg.stAddrInvalid] }

/-- R206, R265. S_HANDOFF and S_FAULT are terminal: no step and no tick follows. Which outcome stands for the end is the
model's choice (notes/assumptions/8.md). -/
def Obligations.TerminalStates : Prop :=
  ∀ s : State, s.cfg.wf = true →
    (s.fsm = .handoff → s.fault = none → step s = .refused .ended ∧ tick s = .refused .ended) ∧
    (∀ r, s.fault = some r → step s = .fault r ∧ tick s = .fault r)

/-! ### The flash sequencer: FlashErase -/

/-- R162, R164. A page count above MAX_PAGES (whatever page_start is, the sentinel included), or a page start that is not
the sentinel and not below MAX_PAGES: ST_ERASE_INVALID, and no flash request. R164 is the spec's own choice (decision D18).
-/
def Obligations.FlashEraseInvalid : Prop :=
  ∀ (s : State) (ps pc : Byte), s.frameFits → s.gatePasses = true →
    (s.cfg.maxPages < pc.toNat ∨ (ps ≠ 0xFF ∧ s.cfg.maxPages ≤ ps.toNat)) →
    exec (.flashErase ps pc) s = .next { s with
      fsm := .idle
      crcAcc := s.cfg.crcInit
      trace := s.trace ++ s.gateEvents ++ [.tx 0xAB, .tx 0x01, .tx s.cfg.stEraseInvalid] }

/-- R163, R166, R167. A mass erase, whatever page_count is below the limit: unlock, erase of the whole bank, lock; the
statuses of unlock, erase and lock are not examined; the status byte says whether `err` is ERASE_NO_ERROR. R166 and R167 are
the spec's own choice (decision D19). -/
def Obligations.MassEraseRuns : Prop :=
  ∀ (s : State) (pc : Byte), s.frameFits → s.gatePasses = true → pc.toNat ≤ s.cfg.maxPages →
    ∃ t u st err l, exec (.flashErase 0xFF pc) s = .next t ∧
      t = { s with
        fsm := .idle
        crcAcc := s.cfg.crcInit
        flOpen := false
        trace := s.trace ++ s.gateEvents ++
          [.tx 0xAB, .tx 0x01, .flUnlock u, .flErase .mass st err, .flLock l,
            .tx (if err = s.cfg.eraseNoError then s.cfg.stEraseOk else s.cfg.stEraseFail)]
        oracle := { s.oracle with
          unlock := s.oracle.unlock.tail, erase := s.oracle.erase.tail, lock := s.oracle.lock.tail }
        draws := s.draws + 3 } ∧
      u = s.unlockAnswer ∧ (st, err) = s.oracle.erase.headD (Config.freeErase (s.draws + 1)) ∧
      l = s.oracle.lock.headD (Config.freeLock (s.draws + 2))

/-- R165, R166, R167. A page erase: the count is clamped to the pages that remain; then as for a mass erase. R165 to R167
are the spec's own choice (decision D19). -/
def Obligations.PageEraseRuns : Prop :=
  ∀ (s : State) (ps pc : Byte), s.frameFits → s.gatePasses = true → pc.toNat ≤ s.cfg.maxPages → ps ≠ 0xFF →
    ps.toNat < s.cfg.maxPages →
    ∃ t u st err l, exec (.flashErase ps pc) s = .next t ∧
      t = { s with
        fsm := .idle
        crcAcc := s.cfg.crcInit
        flOpen := false
        trace := s.trace ++ s.gateEvents ++
          [.tx 0xAB, .tx 0x01, .flUnlock u, .flErase (.pages ps.toNat (min pc.toNat (s.cfg.maxPages - ps.toNat))) st err,
            .flLock l, .tx (if err = s.cfg.eraseNoError then s.cfg.stEraseOk else s.cfg.stEraseFail)]
        oracle := { s.oracle with
          unlock := s.oracle.unlock.tail, erase := s.oracle.erase.tail, lock := s.oracle.lock.tail }
        draws := s.draws + 3 } ∧
      u = s.unlockAnswer ∧ (st, err) = s.oracle.erase.headD (Config.freeErase (s.draws + 1)) ∧
      l = s.oracle.lock.headD (Config.freeLock (s.draws + 2))

/-- R83, R165. No instruction ever asks for an erase beyond page MAX_PAGES - 1. -/
def Obligations.EraseStaysInsideDevice : Prop :=
  ∀ (i : Instr) (s t : State) (evs : List Event) (first count : Nat) (st : Status) (err : Word),
    exec i s = .next t → t.trace = s.trace ++ evs → Event.flErase (.pages first count) st err ∈ evs →
    first < s.cfg.maxPages ∧ first + count ≤ s.cfg.maxPages

/-! ### The flash sequencer: MemWrite -/

/-- R170. MemWrite with an invalid address: ST_ADDR_INVALID, and no flash request. -/
def Obligations.MemWriteInvalidAddress : Prop :=
  ∀ (s : State) (a : Word) (p : List Byte), s.frameFits → s.gatePasses = true → validate s.cfg a = false →
    exec (.memWrite a p) s = .next { s with
      fsm := .idle
      crcAcc := s.cfg.crcInit
      trace := s.trace ++ s.gateEvents ++ [.tx 0xAB, .tx 0x01, .tx s.cfg.stAddrInvalid] }

/-- R264. A payload that reaches past the buffer raises BUF_OOB after the ACK and before any flash request. The spec's own
choice (decision D3). -/
def Obligations.MemWritePayloadPastBuffer : Prop :=
  ∀ (s : State) (a : Word) (p : List Byte), s.frameFits → s.fault = none → s.gatePasses = true → validate s.cfg a = true →
    s.cfg.bufCap ≤ 6 + p.length →
    exec (.memWrite a p) s = .next { s with
      fsm := .fault
      crcAcc := s.cfg.crcInit
      fault := some .bufOob
      trace := s.trace ++ s.gateEvents ++ [.tx 0xAB, .tx 0x01, .fault .bufOob] }

/-- R170, R171. MemWrite with a valid address and a payload inside the buffer: the ACK, then PROGRAM(a, data) as its
pseudocode has it, then the status byte it returns. That a failed unlock is followed by no lock, and the addresses mod 2^32,
are the spec's own choice (decision D20). -/
def Obligations.MemWriteRunsProgram : Prop :=
  ∀ (s : State) (a : Word) (p : List Byte), s.frameFits → s.gatePasses = true → validate s.cfg a = true →
    6 + p.length < s.cfg.bufCap →
    ∃ r, r = (s.gated.sent [0xAB, 0x01]).program a p ∧ exec (.memWrite a p) s = .next (r.1.sent [r.2]).toIdle

/-- R172. A failed unlock: ST_WRITE_FAIL, no FL_PROG and no FL_LOCK. The spec's own choice (decision D20). -/
def Obligations.MemWriteUnlockFails : Prop :=
  ∀ (s : State) (a : Word) (p : List Byte), s.frameFits → s.gatePasses = true → validate s.cfg a = true →
    6 + p.length < s.cfg.bufCap → s.unlockAnswer = .err →
    exec (.memWrite a p) s = .next { s with
      fsm := .idle
      crcAcc := s.cfg.crcInit
      flOpen := false
      trace := s.trace ++ s.gateEvents ++ [.tx 0xAB, .tx 0x01, .flUnlock .err, .tx s.cfg.stWriteFail]
      oracle := { s.oracle with unlock := s.oracle.unlock.tail }
      draws := s.draws + 1 }

/-- R173, R175. Every byte programs: byte `j` at `(a + j) mod 2^32`, one FL_PROG each, then FL_LOCK, whose status decides.
R173 is the spec's own choice (decision D20). -/
def Obligations.MemWriteProgramsEveryByte : Prop :=
  ∀ (s : State) (a : Word) (p : List Byte), s.frameFits → s.gatePasses = true → validate s.cfg a = true →
    6 + p.length < s.cfg.bufCap → s.unlockAnswer = .ok →
    (∀ j, j < p.length → s.oracle.prog.getD j (Config.freeProg (s.draws + 1 + j)) = .ok) →
    ∃ (t : State) (l : Status) (progs : List Event), exec (.memWrite a p) s = .next t ∧
      t = { s with
        fsm := .idle
        crcAcc := s.cfg.crcInit
        flOpen := false
        trace := s.trace ++ s.gateEvents ++ [.tx 0xAB, .tx 0x01, .flUnlock .ok] ++ progs ++
          [.flLock l, .tx (if l = .ok then s.cfg.stWriteOk else s.cfg.stWriteFail)]
        oracle := { s.oracle with
          unlock := s.oracle.unlock.tail, prog := s.oracle.prog.drop p.length, lock := s.oracle.lock.tail }
        draws := s.draws + 2 + p.length } ∧
      l = s.oracle.lock.headD (Config.freeLock (s.draws + 1 + p.length)) ∧
      progs.length = p.length ∧
      ∀ j b, p[j]? = some b → progs[j]? = some (Event.flProg (BitVec.ofNat 32 (a.toNat + j)) b .ok)

/-- R174. Byte `k` is the first to fail: the bytes before it were programmed, none after it is, FL_LOCK is issued, whatever
its status, and the result is ST_WRITE_FAIL. The lock with its status ignored, and the addresses mod 2^32, are the spec's own
choice (decision D20). -/
def Obligations.MemWriteByteFails : Prop :=
  ∀ (s : State) (a : Word) (pre : List Byte) (b : Byte) (post : List Byte), s.frameFits → s.gatePasses = true →
    validate s.cfg a = true → 6 + (pre ++ b :: post).length < s.cfg.bufCap → s.unlockAnswer = .ok →
    (∀ j, j < pre.length → s.oracle.prog.getD j (Config.freeProg (s.draws + 1 + j)) = .ok) →
    s.oracle.prog.getD pre.length (Config.freeProg (s.draws + 1 + pre.length)) = .err →
    ∃ t l, exec (.memWrite a (pre ++ b :: post)) s = .next t ∧
      t = { s with
        fsm := .idle
        crcAcc := s.cfg.crcInit
        flOpen := false
        trace := s.trace ++ s.gateEvents ++ [.tx 0xAB, .tx 0x01, .flUnlock .ok] ++ progEvents a pre ++
          [.flProg (BitVec.ofNat 32 (a.toNat + pre.length)) b .err, .flLock l, .tx s.cfg.stWriteFail]
        oracle := { s.oracle with
          unlock := s.oracle.unlock.tail, prog := s.oracle.prog.drop (pre.length + 1), lock := s.oracle.lock.tail }
        draws := s.draws + 3 + pre.length } ∧
      l = s.oracle.lock.headD (Config.freeLock (s.draws + 2 + pre.length))

/-- R176. The status byte of a MemWrite with a valid address is ST_WRITE_OK exactly when the unlock, every FL_PROG and the
lock returned OK; every other outcome is ST_WRITE_FAIL. The spec derives R176 from R172 to R175. -/
def Obligations.WriteStatusAllOrNothing : Prop :=
  ∀ (s : State) (a : Word) (p : List Byte), s.cfg.wf = true → s.frameFits → s.gatePasses = true →
    validate s.cfg a = true → 6 + p.length < s.cfg.bufCap →
    ∃ t evs st, exec (.memWrite a p) s = .next t ∧ t.trace = s.trace ++ evs ++ [.tx st] ∧
      (st = s.cfg.stWriteOk ∨ st = s.cfg.stWriteFail) ∧
      (st = s.cfg.stWriteOk ↔
        (Event.flUnlock .ok ∈ evs ∧ Event.flLock .ok ∈ evs ∧
          evs.countP Event.isGoodProg = p.length))

/-! ### The sequencer's invariants -/

/-- R179. Outside S_EXEC, a flash request is issued only by the step that runs a FlashErase, or a MemWrite with a valid
address, whose gate passed, and after the gate's events and the ACK. The spec derives R179 from R160, R170 and R118. -/
def Obligations.FlashRequestsOnlyAfterGateAndAck : Prop :=
  ∀ (s t : State) (evs : List Event) (e : Event), s.frameFits → (∀ c l, s.fsm ≠ .exec c l) → step s = .next t →
    t.trace = s.trace ++ evs → e ∈ evs → e.isFlash = true →
    s.fsm = .dispatch ∧ s.gatePasses = true ∧
      (∃ tail, evs = s.gateEvents ++ [.tx 0xAB, .tx 0x01] ++ tail) ∧
      ((∃ ps pc, decodeFrom s.buf.read = .ok (.flashErase ps pc)) ∨
        ∃ a p, decodeFrom s.buf.read = .ok (.memWrite a p) ∧ validate s.cfg a = true)

/-- R180. Each FL_UNLOCK of a fetch cycle is followed by exactly one FL_LOCK before the status byte, which is the last
event, except an FL_UNLOCK of a MemWrite that returned non-OK, which is followed by none: where a lock follows the unlock of
a MemWrite, that unlock returned OK; and fl_open is false afterwards. The spec derives R180 from R166 and R172 to R175. -/
def Obligations.UnlockIsLockedOnce : Prop :=
  ∀ (i : Instr) (s : State), s.frameFits → s.flOpen = false →
    ∃ t evs, exec i s = .next t ∧ t.trace = s.trace ++ evs ∧ t.flOpen = false ∧
      (evs.all (fun e => !e.isUnlock && !e.isLock) = true ∨
        (∃ pre u mid l st, evs = pre ++ [.flUnlock u] ++ mid ++ [.flLock l, .tx st] ∧
          (pre ++ mid).all (fun e => !e.isUnlock && !e.isLock) = true ∧
          mid.all Event.inScope = true ∧ ((∃ a p, i = .memWrite a p) → u = .ok)) ∨
        ∃ pre st a p, i = .memWrite a p ∧ evs = pre ++ [.flUnlock .err, .tx st] ∧
          pre.all (fun e => !e.isFlash) = true)

/-- R296, R26, R166, R171. fl_open is set only in the handlers of codes 0x15 and 0x16; and while it is set, every tick issues
exactly one event, which is a flash request of the handler's own sequence: an FL_ERASE or the FL_LOCK in 0x15, an FL_PROG or
the FL_LOCK in 0x16; no response byte. That a tick issues exactly one event is the model's choice of grain
(notes/assumptions/7.md). -/
def Obligations.OnlyFlashRequestsInsideScope : Prop :=
  ∀ s : State, s.Inv → s.flOpen = true →
    ∃ c l t e, s.fsm = .exec c l ∧ tick s = .next t ∧ t.trace = s.trace ++ [e] ∧
      ((c = 0x15 ∧ (e.isErase = true ∨ e.isLock = true)) ∨ (c = 0x16 ∧ (e.isProg = true ∨ e.isLock = true)))

/-! ### Handlers as a whole -/

/-- R136, R137. Every handler runs to its end: it returns to S_IDLE, or it is a GoToAddr that hands off, or a model fault
stops it. -/
def Obligations.HandlersEnd : Prop :=
  ∀ (i : Instr) (s : State), ∃ t, exec i s = .next t ∧
    (t.fsm = .idle ∨ (t.fsm = .handoff ∧ ∃ a, i = .goToAddr a ∧ validate s.cfg a = true) ∨
      (t.fsm = .fault ∧ ∃ r, t.fault = some r))

/-- The frame of every handler: what it leaves unchanged. All of them: the configuration, every byte of the buffer, what the
transport will deliver; crc_acc is CRC_INIT or as before; the fault record is as before unless the instruction is a
MemWrite. The commands without a collaborator of their own: everything but fsm, crc_acc and the trace. GetChipId and
EnRWProtect: besides, only their own list of answers and the draw counter. FlashErase and MemWrite: besides, only the flash
answers, the draw counter and fl_open. -/
def Obligations.HandlerFrames : Prop :=
  ∀ (i : Instr) (s t : State), s.frameFits → exec i s = .next t →
    (t.cfg = s.cfg ∧ (∀ k, t.buf.read k = s.buf.read k) ∧ t.rx = s.rx ∧
      (t.crcAcc = s.cfg.crcInit ∨ t.crcAcc = s.crcAcc) ∧
      ((∀ a p, i ≠ .memWrite a p) → t.fault = s.fault)) ∧
    (i ∈ [Instr.getVersion, .getHelp, .getRdpStatus, .memRead, .readSectorStatus, .otpRead, .changeRopLevel] →
      t = { s with fsm := t.fsm, crcAcc := t.crcAcc, trace := t.trace }) ∧
    (∀ a, i = .goToAddr a → t = { s with fsm := t.fsm, crcAcc := t.crcAcc, trace := t.trace }) ∧
    (i = .getChipId →
      t = { s with fsm := t.fsm, crcAcc := t.crcAcc, trace := t.trace, draws := t.draws
                   oracle := { s.oracle with ident := t.oracle.ident } }) ∧
    (i = .enRWProtect →
      t = { s with fsm := t.fsm, crcAcc := t.crcAcc, trace := t.trace, draws := t.draws
                   oracle := { s.oracle with opt := t.oracle.opt } }) ∧
    ((∃ ps pc, i = .flashErase ps pc) →
      t = { s with fsm := t.fsm, crcAcc := t.crcAcc, trace := t.trace, draws := t.draws, flOpen := t.flOpen
                   oracle := { s.oracle with
                     unlock := t.oracle.unlock, erase := t.oracle.erase, lock := t.oracle.lock } }) ∧
    ((∃ a p, i = .memWrite a p) →
      t = { s with fsm := t.fsm, crcAcc := t.crcAcc, trace := t.trace, draws := t.draws, flOpen := t.flOpen
                   fault := t.fault
                   oracle := { s.oracle with
                     unlock := t.oracle.unlock, prog := t.oracle.prog, lock := t.oracle.lock } })

/-! ### The machine as a whole -/

/-- R34, R292. The invariant holds after reset, of every configuration that meets R8, and at every launch that meets the
launch premises, whatever the buffer holds; there, two steps after the launch, BUF[0] is the length byte of the host's first
frame, once a byte has come. The configuration and the buffer of State.reset are the model's choice
(notes/assumptions/1.md, 3.md). -/
def Obligations.InvariantAtReset : Prop :=
  (∀ cfg : Cfg, cfg.wf = true → (State.resetWith cfg).Inv) ∧ State.reset.Inv ∧
  ∀ (s : State) (around : Surroundings), s.Launched around → s.fsm = .idle → s.flOpen = false → s.fault = none →
    s.buf.wf = true → s.buf.within s.cfg.bufCap = true →
    s.Inv ∧ ∀ (b : Byte) (rest : List RxItem), s.rx = .byte b :: rest →
      ∃ t u, step s = .next t ∧ step t = .next u ∧ u.fsm = .rxBody ∧ around.firstFrame.head? = some (u.buf.read 0)

/-- Every step keeps the invariant: the buffer is canonical and inside its capacity, it holds what was received and zero
beyond, crc_acc is CRC_INIT outside the gate, the flash scope is closed outside its handlers, a handoff is left only for a valid
address, a fault is recorded exactly in S_FAULT. -/
def Obligations.StepKeepsInvariant : Prop :=
  ∀ s t : State, s.Inv → step s = .next t → t.Inv

/-- Every tick keeps the invariant: it holds at every position inside a handler too. -/
def Obligations.TickKeepsInvariant : Prop :=
  ∀ s t : State, s.Inv → tick s = .next t → t.Inv

/-- A step is finitely many ticks: running a handler to its end at once is running it one action at a time. The two grains
are the model's choice (notes/assumptions/7.md). -/
def Obligations.StepIsFinitelyManyTicks : Prop :=
  ∀ s t : State, step s = .next t → ∃ n, ticks n s = .next t

/-- R20. The control state moves only as the table says, each row under its condition; besides, a receive may wait
(notes/assumptions/6.md), and a handler moves on inside itself. S_EXEC(c) goes to S_FAULT only where the action about to be
performed reads the buffer at an index at or past BUF_CAP, to S_IDLE only where nothing of the handler is left, and, from a
state with the invariant, to S_HANDOFF only in S_EXEC(0x14) for an address that is valid, whose successor is the target (the
addition is the spec's own choice, decision D24). -/
def Obligations.ControlTransitions : Prop :=
  ∀ s t : State, tick s = .next t →
    (s.fsm = .idle ∧ t.fsm = .rxLen) ∨
    (s.fsm = .rxLen ∧
      ((t.fsm = .idle ∧ t.trace = s.trace ++ [.rxReq 1 .fail, .tx 0xCD]) ∨
        (t.fsm = .rxBody ∧ ∃ b, t.trace = s.trace ++ [.rxReq 1 (.ok [b])]) ∨ t = s)) ∨
    (s.fsm = .rxBody ∧
      ((s.cfg.bufCap < s.frameLen + 1 ∧ t.fsm = .fault) ∨
        (s.frameFits ∧
          ((t.fsm = .idle ∧ t.trace = s.trace ++ [.rxReq s.frameLen .fail, .tx 0xCD]) ∨
            (t.fsm = .dispatch ∧ ∃ bs, bs.length = s.frameLen ∧ t.trace = s.trace ++ [.rxReq s.frameLen (.ok bs)]) ∨
            t = s)))) ∨
    (s.fsm = .dispatch ∧
      ((s.buf.read 1 ∈ helpTable ∧ ∃ l, t.fsm = .exec (s.buf.read 1) l) ∨ (s.buf.read 1 ∉ helpTable ∧ t.fsm = .idle))) ∨
    (∃ c l, s.fsm = .exec c l ∧
      ((∃ l', t.fsm = .exec c l') ∨ (l = [] ∧ t.fsm = .idle) ∨
        (t.fsm = .fault ∧ t.fault = some .bufOob ∧
          ∃ a rest k, l = a :: rest ∧ a.lastRead s = some k ∧ s.cfg.bufCap ≤ k) ∨
        (t.fsm = .handoff ∧ (∃ target, t.trace = s.trace ++ [.handoff target]) ∧
          (s.Inv → c = 0x14 ∧ ∃ a, validate s.cfg a = true ∧ t.trace = s.trace ++ [.handoff (a + 1)]))))

/-- R32. The fault record: it is set by the tick that raises the fault, with the event, in S_FAULT; while it is set there is
no tick, so it is never cleared or changed. The spec's own choice (decisions D2, D3). -/
def Obligations.FaultRecordedOnce : Prop :=
  (∀ cfg, (State.resetWith cfg).fault = none) ∧
  (∀ s t : State, tick s = .next t →
    s.fault = none ∧ (t.fault = none ∨
      ∃ r, t.fault = some r ∧ t.fsm = .fault ∧ t.trace = s.trace ++ [.fault r])) ∧
  (∀ s : State, s.Inv → s.fault ≠ none → s.fsm = .fault ∧ ∀ t, tick s ≠ .next t)

/-- R29: no step writes the configuration. R10, R62: a step only appends events to the trace. The trace is the spec's own
choice (decision D1). -/
def Obligations.ConfigurationFixedAndTraceGrows : Prop :=
  ∀ s t : State, step s = .next t → t.cfg = s.cfg ∧ ∃ evs, t.trace = s.trace ++ evs

/-- R23. When a handler is entered, BUF[0 .. N] holds what was received in this cycle, the rest of the buffer is zero, and
no handler writes it: stated from the cycle start, for a frame of N = `bs.length` bytes, at S_DISPATCH, after the tick that
enters S_EXEC(c) or after a whole handler; and no tick in S_EXEC(c), wherever in the handler, writes the buffer. For N = 0,
that RX(0) is issued, and runs on when it is answered Ok, is the spec's own choice (decision D5). -/
def Obligations.HandlersSeeOnlyReceivedBytes : Prop :=
  (∀ (s : State) (n : Byte) (bs : List Byte) (rest : List RxItem), s.Inv → s.fsm = .idle →
    n.toNat = bs.length → (bs = [] → s.rxZeroAnswer = true) → bs.length < s.cfg.bufCap →
    s.rx = .byte n :: bs.map .byte ++ rest →
    ∃ s1 s2 s3, step s = .next s1 ∧ step s1 = .next s2 ∧ step s2 = .next s3 ∧ s3.fsm = .dispatch ∧
      s3.rx = rest ∧ (∀ k, s3.buf.read k = (n :: bs).getD k 0) ∧
      (∀ t, tick s3 = .next t → ∀ k, t.buf.read k = s3.buf.read k) ∧
      ∀ i t, exec i s3 = .next t → ∀ k, t.buf.read k = s3.buf.read k) ∧
  ∀ (s t : State) (c : Byte) (l : List Act), s.fsm = .exec c l → tick s = .next t → ∀ k, t.buf.read k = s.buf.read k

/-! ### Reset and launch -/

/-- R34. The state after reset. Its buffer is the model's choice (notes/assumptions/3.md), and nothing is said of it here.
The spec's own choice (decision D27). -/
def Obligations.ResetState : Prop :=
  (∀ cfg : Cfg, (State.resetWith cfg).fsm = .idle ∧ (State.resetWith cfg).flOpen = false ∧
    (State.resetWith cfg).fault = none ∧ (State.resetWith cfg).crcAcc = cfg.crcInit ∧
    (State.resetWith cfg).cfg = cfg) ∧
  ∃ cfg, State.reset = State.resetWith cfg

/-- R291. A reset in any state, inside a handler too: the command is abandoned, no event is issued (so no FlLock), and the
registers take their reset values. The spec's own choice (decision D27; notes/assumptions/15.md). -/
def Obligations.ResetAbandonsCommand : Prop :=
  ∀ s : State, s.resetFrom.fsm = .idle ∧ s.resetFrom.flOpen = false ∧ s.resetFrom.fault = none ∧
    s.resetFrom.crcAcc = s.cfg.crcInit ∧ s.resetFrom.cfg = s.cfg ∧ s.resetFrom.trace = s.trace ∧
    (s.Inv → s.resetFrom.Inv)

/-- R290. The first step from reset is the cycle start, and what the buffer held makes no difference to it. The spec's own
choice (decision D27). -/
def Obligations.ResetBufferNeverObserved : Prop :=
  ∀ (cfg : Cfg) (m : Memory), cfg.wf = true →
    step { State.resetWith cfg with buf := m } = step (State.resetWith cfg) ∧
      step (State.resetWith cfg) = .next { State.resetWith cfg with fsm := .rxLen, buf := [] }

/-- R8. A configuration that fails any of (a) to (d) is refused before anything runs; one that meets them all is not. The
spec's own choice (decisions D2, D11, D16, D17). -/
def Obligations.ConfigurationChecked : Prop :=
  ∀ s : State,
    let c := s.cfg
    let ok := c.sramBase.toNat ≤ c.sramEnd.toNat ∧ c.flashBase.toNat ≤ c.flashEnd.toNat ∧
      1 ≤ c.maxPages ∧ c.maxPages ≤ 255 ∧
      c.stAddrValid ≠ c.stAddrInvalid ∧ c.stWriteOk ≠ c.stWriteFail ∧
      c.stEraseInvalid ≠ c.stEraseFail ∧ c.stEraseInvalid ≠ c.stEraseOk ∧ c.stEraseFail ≠ c.stEraseOk ∧
      7 ≤ c.bufCap
    (¬ ok → step s = .refused .badConfig ∧ tick s = .refused .badConfig) ∧ (ok → step s ≠ .refused .badConfig)
end

