-- ==== Sys2Proof/Laws/Crc.lean ====
section
/-! SUPPORT. The accumulator over a list of bytes; and the default CRC_STEP loses nothing: different accumulators, or different
words, give different accumulators. -/

namespace Sys2Proof.Machine

theorem crcOf_append (alg : CrcAlg) (acc : Word) (xs ys : List Byte) :
    crcOf alg acc (xs ++ ys) = crcOf alg (crcOf alg acc xs) ys := by
  induction xs generalizing acc with
  | nil => rfl
  | cons x xs ih => exact ih _

/-- Bit 0 of the shifted accumulator is its old bit 31; bit `j + 1` is its old bit `j`, changed where the polynomial was folded in. -/
theorem crcShift_bits (x : Word) :
    (crcShift x).getLsbD 0 = x.getLsbD 31 ∧
      ∀ j, j < 31 →
        (crcShift x).getLsbD (j + 1) = (x.getLsbD j ^^ (x.getLsbD 31 && (0x04C11DB7#32).getLsbD (j + 1))) := by
  unfold crcShift
  rw [BitVec.msb_eq_getLsbD_last]
  constructor
  · split <;> simp_all
  · intro j hj
    split <;> simp_all <;> (intro; omega)

/-- One shift of the default CRC loses nothing. -/
theorem crcShift_inj {a b : Word} (h : crcShift a = crcShift b) : a = b := by
  obtain ⟨ka, ka'⟩ := crcShift_bits a
  obtain ⟨kb, kb'⟩ := crcShift_bits b
  have h31 : a.getLsbD 31 = b.getLsbD 31 := by rw [← ka, ← kb, h]
  apply BitVec.eq_of_getLsbD_eq
  intro j hj
  by_cases hj' : j = 31
  · rw [hj']
    exact h31
  · have := (ka' j (by omega)).symm.trans ((congrArg (·.getLsbD (j + 1)) h).trans (kb' j (by omega)))
    rw [h31] at this
    simpa using this

theorem crcShifts_inj {n : Nat} {a b : Word} (h : crcShifts n a = crcShifts n b) : a = b := by
  induction n generalizing a b with
  | zero => exact h
  | succ n ih => exact crcShift_inj (ih h)

/-- Different words give different accumulators. -/
theorem stm32CrcStep_word_inj {acc v w : Word} (h : stm32CrcStep acc v = stm32CrcStep acc w) : v = w :=
  (BitVec.xor_right_inj _).mp (crcShifts_inj h)

/-- Different accumulators stay different whatever bytes are fed. -/
theorem crcOf_acc_inj {a b : Word} {bs : List Byte} (h : crcOf .stm32 a bs = crcOf .stm32 b bs) : a = b := by
  induction bs generalizing a b with
  | nil => exact h
  | cons x bs ih => exact (BitVec.xor_left_inj _).mp (crcShifts_inj (ih h))

end Sys2Proof.Machine
end

