-- ==== Sys2Proof/Laws/Decode.lean ====
section
/-! SUPPORT. What the decoder can answer, and what the transport's stream answers a receive with. -/

namespace Sys2Proof

theorem lookup_mem {α : Type} {k : Byte} {l : List (Byte × α)} {v : α} (h : l.lookup k = some v) : (k, v) ∈ l := by
  induction l with
  | nil => cases h
  | cons p l ih =>
    obtain ⟨k', v'⟩ := p
    rw [List.lookup_cons] at h
    by_cases hk : k = k'
    · subst hk
      rw [BEq.rfl] at h
      cases h
      exact List.mem_cons_self
    · rw [beq_eq_false_iff_ne.mpr hk] at h
      exact List.mem_cons_of_mem _ (ih h)

theorem lookup_none {α : Type} {k : Byte} {l : List (Byte × α)} (h : l.lookup k = none) : k ∉ l.map Prod.fst := by
  induction l with
  | nil => simp
  | cons p l ih =>
    obtain ⟨k', v'⟩ := p
    rw [List.lookup_cons] at h
    by_cases hk : k = k'
    · subst hk
      rw [BEq.rfl] at h
      cases h
    · rw [beq_eq_false_iff_ne.mpr hk] at h
      rw [List.map_cons, List.mem_cons, not_or]
      exact ⟨hk, ih h⟩

theorem opcodeRows_codes (rd : Nat → Byte) : (opcodeRows rd).map Prod.fst = Machine.helpTable := rfl

/-- The rows of the opcode table an answer can come from. -/
theorem decodeFrom_mem {rd : Nat → Byte} {i : Instr} (h : decodeFrom rd = .ok i) : (rd 1, i) ∈ opcodeRows rd := by
  unfold decodeFrom at h
  split at h
  · rename_i hl
    cases h
    exact lookup_mem hl
  · cases h

/-- A code of no row is rejected by name (R84). -/
theorem decodeFrom_error {rd : Nat → Byte} {e : DecodeError} (h : decodeFrom rd = .error e) :
    rd 1 ∉ Machine.helpTable ∧ e = .unknownCode (rd 1) := by
  unfold decodeFrom at h
  split at h
  · cases h
  · rename_i hl
    cases h
    exact ⟨opcodeRows_codes rd ▸ lookup_none hl, rfl⟩

/-- The instruction decoded has the code of byte 1 (R77). -/
theorem decodeFrom_code {rd : Nat → Byte} {i : Instr} (h : decodeFrom rd = .ok i) : i.code = rd 1 := by
  have hm := decodeFrom_mem h
  simp only [opcodeRows, List.mem_cons, Prod.mk.injEq, List.not_mem_nil, or_false] at hm
  rcases hm with h | h | h | h | h | h | h | h | h | h | h | h <;> exact h.2 ▸ h.1.symm

/-- The codes of the opcode table are distinct (R77): no two rows overlap. -/
theorem opcodeRows_distinct : Machine.helpTable.Pairwise (· ≠ ·) := by decide

theorem code_mem_helpTable (i : Instr) : i.code ∈ Machine.helpTable := by
  cases i <;> simp [Instr.code, Machine.helpTable]

end Sys2Proof

namespace Sys2Proof.Machine

/-- All the bytes are there. -/
theorem receive_bytes (m : Bool) (bs : List Byte) (rest : List RxItem) :
    receive m bs.length (bs.map .byte ++ rest) = .bytes bs rest := by
  induction bs with
  | nil => cases rest <;> rfl
  | cons b bs ih => simp [receive, ih, Received.push]

/-- Too few bytes are there before the transport gives up, and the receive has a finite timeout. -/
theorem receive_silence {bs : List Byte} {n : Nat} (h : bs.length < n) (rest : List RxItem) :
    receive true n (bs.map .byte ++ .silence :: rest) = .failed rest := by
  induction bs generalizing n with
  | nil =>
    cases n with
    | zero => exact absurd h (by simp)
    | succ n => rfl
  | cons b bs ih =>
    cases n with
    | zero => exact absurd h (by simp)
    | succ n => simp [receive, ih (n := n) (by simpa using h), Received.push]

/-- Too few bytes are there, and the host is expected to send more. -/
theorem receive_waiting (m : Bool) {bs : List Byte} {n : Nat} (h : bs.length < n) :
    receive m n (bs.map .byte) = .waiting := by
  induction bs generalizing n with
  | nil =>
    cases n with
    | zero => exact absurd h (by simp)
    | succ n => rfl
  | cons b bs ih =>
    cases n with
    | zero => exact absurd h (by simp)
    | succ n => simp [receive, ih (n := n) (by simpa using h), Received.push]

/-- Without a timeout silences do not matter: the receive ends with the item that is its last byte (R303). -/
theorem receive_through (pre : List RxItem) (b : Byte) (rest : List RxItem) :
    receive false ((bytesOf pre).length + 1) (pre ++ .byte b :: rest) = .bytes (bytesOf pre ++ [b]) rest := by
  induction pre with
  | nil => simp [bytesOf, receive, Received.push]
  | cons item pre ih =>
    cases item with
    | byte x => simp [bytesOf, receive, ih, Received.push]
    | silence => simpa [bytesOf, receive] using ih

/-- Without a timeout a receive waits where too few bytes have come, whatever silences stand among them (R31, R303). -/
theorem receive_endless {items : List RxItem} {n : Nat} (h : (bytesOf items).length < n) :
    receive false n items = .waiting := by
  obtain ⟨n, rfl⟩ : ∃ m, n = m + 1 := ⟨n - 1, by omega⟩
  induction items generalizing n with
  | nil => rfl
  | cons item items ih =>
    cases item with
    | byte x =>
      obtain ⟨n, rfl⟩ : ∃ m, n = m + 1 := ⟨n - 1, by simp [bytesOf] at h; omega⟩
      simp [receive, ih n (by simpa [bytesOf] using h), Received.push]
    | silence => simpa [receive] using ih n (by simpa [bytesOf] using h)

/-- A receive that gets its bytes gets as many as it asked for. -/
theorem receive_length {m : Bool} {n : Nat} {items : List RxItem} {bs : List Byte} {rest : List RxItem}
    (h : receive m n items = .bytes bs rest) : bs.length = n := by
  induction items generalizing n bs rest with
  | nil =>
    cases n with
    | zero =>
      simp only [receive, Received.bytes.injEq] at h
      rw [← h.1]
      rfl
    | succ n => simp [receive] at h
  | cons item items ih =>
    cases n with
    | zero =>
      simp only [receive, Received.bytes.injEq] at h
      rw [← h.1]
      rfl
    | succ n =>
      cases item with
      | byte b =>
        simp only [receive] at h
        cases hr : receive m n items with
        | bytes bs' rest' =>
          simp only [hr, Received.push, Received.bytes.injEq] at h
          rw [← h.1, List.length_cons, ih hr]
        | failed rest' => simp [hr, Received.push] at h
        | waiting => simp [hr, Received.push] at h
      | silence =>
        simp only [receive] at h
        cases m with
        | true => simp at h
        | false => exact ih (by simpa using h)

/-- A receive fails only where it has a finite timeout (R31). -/
theorem receive_failed {m : Bool} {n : Nat} {items rest : List RxItem} (h : receive m n items = .failed rest) :
    m = true := by
  induction items generalizing n rest with
  | nil => cases n <;> simp [receive] at h
  | cons item items ih =>
    cases n with
    | zero => simp [receive] at h
    | succ n =>
      cases item with
      | byte b =>
        simp only [receive] at h
        cases hr : receive m n items with
        | bytes bs' rest' => simp [hr, Received.push] at h
        | failed rest' => exact ih hr
        | waiting => simp [hr, Received.push] at h
      | silence =>
        cases m with
        | true => rfl
        | false => exact ih (by simpa [receive] using h)

theorem freeBytes_length (k i n : Nat) : (freeBytes k i n).length = n := by
  induction n generalizing i with
  | zero => rfl
  | succ n ih => simp [freeBytes, ih]

end Sys2Proof.Machine
end

