-- ==== Sys2Proof/Laws/Memory.lean ====
section
/-! SUPPORT. The buffer's memory: reads after writes, and the canonical form is kept. -/

namespace Sys2Proof.Machine

@[simp] theorem Memory.read_nil (i : Nat) : Memory.read [] i = 0 := rfl

theorem Memory.read_cons_entry (a : Nat) (b : Byte) (m : Memory) (i : Nat) :
    Memory.read ((a, b) :: m) i = if a = i then b else Memory.read m i := rfl

/-- Below the least listed index everything reads as 0. -/
theorem Memory.read_below {lo : Nat} {m : Memory} (h : Memory.wfFrom lo m = true) {i : Nat} (hi : i < lo) :
    m.read i = 0 := by
  induction m generalizing lo with
  | nil => rfl
  | cons c m ih =>
    obtain ⟨a, b⟩ := c
    simp only [Memory.wfFrom, Bool.and_eq_true, decide_eq_true_eq] at h
    rw [Memory.read_cons_entry, if_neg (by omega)]
    exact ih h.2 (by omega)

theorem Memory.wfFrom_mono {lo lo' : Nat} {m : Memory} (h : Memory.wfFrom lo m = true) (hl : lo' ≤ lo) :
    Memory.wfFrom lo' m = true := by
  cases m with
  | nil => rfl
  | cons c m =>
    obtain ⟨a, b⟩ := c
    simp only [Memory.wfFrom, Bool.and_eq_true, decide_eq_true_eq] at h ⊢
    exact ⟨⟨by omega, h.1.2⟩, h.2⟩

theorem Memory.read_cons {a : Nat} {m : Memory} (h : Memory.wfFrom (a + 1) m = true) (b : Byte) (i : Nat) :
    (Memory.cons a b m).read i = if a = i then b else m.read i := by
  unfold Memory.cons
  split
  · rename_i hb
    split
    · rename_i hai
      rw [hb]
      exact Memory.read_below h (by omega)
    · rfl
  · exact Memory.read_cons_entry a b m i

theorem Memory.cons_wf {lo a : Nat} {m : Memory} (h : Memory.wfFrom (a + 1) m = true) (hl : lo ≤ a) (b : Byte) :
    Memory.wfFrom lo (Memory.cons a b m) = true := by
  unfold Memory.cons
  split
  · exact Memory.wfFrom_mono h (by omega)
  · rename_i hb
    simp only [Memory.wfFrom, Bool.and_eq_true, decide_eq_true_eq]
    exact ⟨⟨hl, hb⟩, h⟩

/-- A write keeps the canonical form. -/
theorem Memory.write_wfFrom {lo : Nat} {m : Memory} (h : Memory.wfFrom lo m = true) {i : Nat} (hi : lo ≤ i) (b : Byte) :
    Memory.wfFrom lo (m.write i b) = true := by
  induction m generalizing lo with
  | nil => exact Memory.cons_wf (by rfl) hi b
  | cons c m ih =>
    obtain ⟨a, x⟩ := c
    simp only [Memory.wfFrom, Bool.and_eq_true, decide_eq_true_eq] at h
    unfold Memory.write
    split
    · rename_i hlt
      refine Memory.cons_wf ?_ hi b
      simp only [Memory.wfFrom, Bool.and_eq_true, decide_eq_true_eq]
      exact ⟨⟨by omega, h.1.2⟩, h.2⟩
    · split
      · rename_i heq
        exact Memory.cons_wf (heq ▸ h.2) hi b
      · simp only [Memory.wfFrom, Bool.and_eq_true, decide_eq_true_eq]
        exact ⟨h.1, ih h.2 (by omega)⟩

theorem Memory.write_wf {m : Memory} (h : m.wf = true) (i : Nat) (b : Byte) : (m.write i b).wf = true :=
  Memory.write_wfFrom h (Nat.zero_le i) b

/-- A read after a write gives the byte written, and every other index reads as before. -/
theorem Memory.read_write_from {lo : Nat} {m : Memory} (h : Memory.wfFrom lo m = true) (i : Nat) (b : Byte) (j : Nat) :
    (m.write i b).read j = if i = j then b else m.read j := by
  induction m generalizing lo with
  | nil =>
    rw [Memory.write, Memory.read_cons (by rfl)]
  | cons c m ih =>
    obtain ⟨a, x⟩ := c
    simp only [Memory.wfFrom, Bool.and_eq_true, decide_eq_true_eq] at h
    unfold Memory.write
    split
    · rename_i hlt
      rw [Memory.read_cons]
      simp only [Memory.wfFrom, Bool.and_eq_true, decide_eq_true_eq]
      exact ⟨⟨by omega, h.1.2⟩, h.2⟩
    · split
      · rename_i heq
        rw [Memory.read_cons (heq ▸ h.2), Memory.read_cons_entry]
        by_cases hij : i = j
        · simp [hij]
        · rw [if_neg hij, if_neg hij, if_neg (by omega)]
      · rename_i hne
        rw [Memory.read_cons_entry, Memory.read_cons_entry, ih h.2]
        by_cases haj : a = j
        · rw [if_pos haj, if_pos haj, if_neg (by omega)]
        · rw [if_neg haj, if_neg haj]

theorem Memory.read_write {m : Memory} (h : m.wf = true) (i : Nat) (b : Byte) (j : Nat) :
    (m.write i b).read j = if i = j then b else m.read j :=
  Memory.read_write_from h i b j

theorem Memory.writeList_wf {m : Memory} (h : m.wf = true) (i : Nat) (bs : List Byte) : (m.writeList i bs).wf = true := by
  induction bs generalizing m i with
  | nil => exact h
  | cons b bs ih => exact ih (Memory.write_wf h i b) (i + 1)

/-- A read after a list of bytes has been written: the bytes where they were written, what was there elsewhere. -/
theorem Memory.read_writeList {m : Memory} (h : m.wf = true) (i : Nat) (bs : List Byte) (j : Nat) :
    (m.writeList i bs).read j = if i ≤ j ∧ j < i + bs.length then bs.getD (j - i) 0 else m.read j := by
  induction bs generalizing m i with
  | nil => rw [Memory.writeList, List.length_nil, if_neg (by omega)]
  | cons b bs ih =>
    rw [Memory.writeList, ih (Memory.write_wf h i b), Memory.read_write h, List.length_cons]
    by_cases hij : i = j
    · subst hij
      simp
    · by_cases hin : i + 1 ≤ j ∧ j < i + 1 + bs.length
      · rw [if_pos hin, if_pos (by omega), show j - i = (j - (i + 1)) + 1 by omega, List.getD_cons_succ]
      · rw [if_neg hin, if_neg hij, if_neg (by omega)]

theorem Memory.ofBytes_wf (bs : List Byte) : (Memory.ofBytes bs).wf = true :=
  Memory.writeList_wf (by rfl) 0 bs

/-- A buffer made of a list of bytes reads as that list, and as 0 past its end. -/
@[simp] theorem Memory.read_ofBytes (bs : List Byte) (i : Nat) : (Memory.ofBytes bs).read i = bs.getD i 0 := by
  rw [Memory.ofBytes, Memory.read_writeList (by rfl)]
  by_cases h : i < bs.length
  · rw [if_pos (by omega), Nat.sub_zero]
  · rw [if_neg (by omega), List.getD_eq_default _ _ (by omega), Memory.read_nil]

/-- Past the indexes it is within, a buffer reads as 0. -/
theorem Memory.read_beyond {m : Memory} {cap : Nat} (h : m.within cap = true) {i : Nat} (hi : cap ≤ i) : m.read i = 0 := by
  induction m with
  | nil => rfl
  | cons c m ih =>
    obtain ⟨a, b⟩ := c
    simp only [Memory.within, List.all_cons, Bool.and_eq_true, decide_eq_true_eq] at h
    rw [Memory.read_cons_entry, if_neg (by omega)]
    exact ih (by simpa [Memory.within] using h.2)

theorem Memory.within_mono {m : Memory} {a b : Nat} (h : m.within a = true) (hab : a ≤ b) : m.within b = true := by
  simp only [Memory.within, List.all_eq_true, decide_eq_true_eq] at h ⊢
  exact fun x hx => lt_of_lt_of_le (h x hx) hab

theorem Memory.cons_within {m : Memory} {cap i : Nat} (h : m.within cap = true) (hi : i < cap) (b : Byte) :
    (Memory.cons i b m).within cap = true := by
  unfold Memory.cons
  split
  · exact h
  · simpa [Memory.within, hi] using h

theorem Memory.write_within {m : Memory} {cap i : Nat} (h : m.within cap = true) (hi : i < cap) (b : Byte) :
    (m.write i b).within cap = true := by
  induction m with
  | nil => exact Memory.cons_within h hi b
  | cons c m ih =>
    obtain ⟨a, x⟩ := c
    have ht : Memory.within cap m = true ∧ a < cap := by
      simp only [Memory.within, List.all_cons, Bool.and_eq_true, decide_eq_true_eq] at h
      exact ⟨by simpa [Memory.within] using h.2, h.1⟩
    unfold Memory.write
    split
    · exact Memory.cons_within h hi b
    · split
      · exact Memory.cons_within ht.1 hi b
      · simpa [Memory.within, ht.2] using ih ht.1

theorem Memory.writeList_within {m : Memory} {cap i : Nat} {bs : List Byte} (h : m.within cap = true)
    (hi : i + bs.length ≤ cap) : (m.writeList i bs).within cap = true := by
  induction bs generalizing m i with
  | nil => exact h
  | cons b bs ih =>
    rw [List.length_cons] at hi
    exact ih (Memory.write_within h (by omega) b) (by omega)

end Sys2Proof.Machine
end

