-- ==== Sys2Proof/Laws/Operands.lean ====
section
/-! SUPPORT. Little-endian words and lists of bytes read at an offset: which byte each bit comes from, and that writing a word
least significant byte first and reading it back gives the word. -/

namespace Sys2Proof

/-- Bit `8 k + b` of a word read at offset `i` is bit `b` of byte `i + k` (R51). -/
theorem le32At_bit (rd : Nat → Byte) (i k b : Nat) (hk : k < 4) (hb : b < 8) :
    (le32At rd i).getLsbD (8 * k + b) = (rd (i + k)).getLsbD b := by
  unfold le32At
  simp only [BitVec.getLsbD_append]
  have : k = 0 ∨ k = 1 ∨ k = 2 ∨ k = 3 := by omega
  rcases this with rfl | rfl | rfl | rfl
  · simp [hb]
  · rw [if_neg (by omega), if_pos (by omega)]
    congr 1
    omega
  · rw [if_neg (by omega), if_neg (by omega), if_pos (by omega)]
    congr 1
    omega
  · rw [if_neg (by omega), if_neg (by omega), if_neg (by omega)]
    congr 1
    omega

/-- A word whose four bytes stand at offset `i`, least significant first, is read there (R50, R51). -/
theorem le32At_leBytes (a : Word) (rd : Nat → Byte) (i : Nat) (h : ∀ k, k < 4 → rd (i + k) = (leBytes a).getD k 0) :
    le32At rd i = a := by
  have h0 := h 0 (by omega)
  have h1 := h 1 (by omega)
  have h2 := h 2 (by omega)
  have h3 := h 3 (by omega)
  simp [leBytes] at h0 h1 h2 h3
  simp only [le32At, h0, h1, h2, h3]
  ext j hj
  have : j < 8 ∨ (8 ≤ j ∧ j < 16) ∨ (16 ≤ j ∧ j < 24) ∨ (24 ≤ j ∧ j < 32) := by omega
  simp only [BitVec.getElem_append, BitVec.getElem_extractLsb']
  rcases this with h | h | h | h
  · rw [dif_pos h]
    simp [BitVec.getLsbD_eq_getElem hj]
  · rw [dif_neg (by omega), dif_pos (by omega), show 8 + (j - 8) = j by omega, BitVec.getLsbD_eq_getElem hj]
  · rw [dif_neg (by omega), dif_neg (by omega), dif_pos (by omega), show 16 + (j - 8 - 8) = j by omega,
      BitVec.getLsbD_eq_getElem hj]
  · rw [dif_neg (by omega), dif_neg (by omega), dif_neg (by omega), show 24 + (j - 8 - 8 - 8) = j by omega,
      BitVec.getLsbD_eq_getElem hj]

theorem bytesAt_length (rd : Nat → Byte) (i n : Nat) : (bytesAt rd i n).length = n := by
  induction n generalizing i with
  | zero => rfl
  | succ n ih => simp [bytesAt, ih]

/-- Byte `j` of the bytes from offset `i` on is the byte at offset `i + j`. -/
theorem bytesAt_get (rd : Nat → Byte) (i n j : Nat) (h : j < n) : (bytesAt rd i n)[j]? = some (rd (i + j)) := by
  induction n generalizing i j with
  | zero => omega
  | succ n ih =>
    cases j with
    | zero => simp [bytesAt]
    | succ j =>
      simp [bytesAt, ih (i + 1) j (by omega)]
      congr 1
      omega

/-- A list whose bytes stand at offset `i` is read there. -/
theorem bytesAt_eq (rd : Nat → Byte) (i : Nat) (p : List Byte) (h : ∀ k, k < p.length → rd (i + k) = p.getD k 0) :
    bytesAt rd i p.length = p := by
  induction p generalizing i with
  | nil => rfl
  | cons b p ih =>
    have h0 := h 0 (by simp)
    simp at h0
    simp only [List.length_cons, bytesAt, h0]
    congr 1
    apply ih
    intro k hk
    have := h (k + 1) (by simpa using hk)
    rw [show i + 1 + k = i + (k + 1) by omega, this]
    rfl

/-- Only the bytes in the range matter. -/
theorem bytesAt_congr {rd rd' : Nat → Byte} {i n : Nat} (h : ∀ k, i ≤ k → k < i + n → rd k = rd' k) :
    bytesAt rd i n = bytesAt rd' i n := by
  induction n generalizing i with
  | zero => rfl
  | succ n ih => rw [bytesAt, bytesAt, h i (by omega) (by omega), ih (fun k a b => h k (by omega) (by omega))]

/-- The bytes before one of them, that byte, and the bytes after it. -/
theorem bytesAt_split (rd : Nat → Byte) (i k n : Nat) (h : k < n) :
    bytesAt rd i n = bytesAt rd i k ++ rd (i + k) :: bytesAt rd (i + k + 1) (n - k - 1) := by
  induction k generalizing i n with
  | zero =>
    obtain ⟨m, rfl⟩ : ∃ m, n = m + 1 := ⟨n - 1, by omega⟩
    simp [bytesAt]
  | succ k ih =>
    obtain ⟨m, rfl⟩ : ∃ m, n = m + 1 := ⟨n - 1, by omega⟩
    simp only [bytesAt, List.cons_append]
    rw [ih (i + 1) m (by omega), show i + 1 + k = i + (k + 1) by omega]
    congr 3
    congr 1
    omega

end Sys2Proof
end

