-- ==== Sys2Proof/Laws/State.lean ====
section
/-! SUPPORT. What each primitive does to each field of State, one lemma a field, all true by rfl. -/

namespace Sys2Proof.Machine

variable (s : State)

/-! `State.emit` -/

@[simp] theorem State.emit_cfg (e : Event) : (s.emit e).cfg = s.cfg := rfl
@[simp] theorem State.emit_fsm (e : Event) : (s.emit e).fsm = s.fsm := rfl
@[simp] theorem State.emit_buf (e : Event) : (s.emit e).buf = s.buf := rfl
@[simp] theorem State.emit_crcAcc (e : Event) : (s.emit e).crcAcc = s.crcAcc := rfl
@[simp] theorem State.emit_flOpen (e : Event) : (s.emit e).flOpen = s.flOpen := rfl
@[simp] theorem State.emit_fault (e : Event) : (s.emit e).fault = s.fault := rfl
@[simp] theorem State.emit_trace (e : Event) : (s.emit e).trace = s.trace ++ [e] := rfl
@[simp] theorem State.emit_rx (e : Event) : (s.emit e).rx = s.rx := rfl
@[simp] theorem State.emit_oracle (e : Event) : (s.emit e).oracle = s.oracle := rfl
@[simp] theorem State.emit_draws (e : Event) : (s.emit e).draws = s.draws := rfl

/-! `State.send` -/

@[simp] theorem State.send_cfg (b : Byte) : (s.send b).cfg = s.cfg := rfl
@[simp] theorem State.send_fsm (b : Byte) : (s.send b).fsm = s.fsm := rfl
@[simp] theorem State.send_buf (b : Byte) : (s.send b).buf = s.buf := rfl
@[simp] theorem State.send_crcAcc (b : Byte) : (s.send b).crcAcc = s.crcAcc := rfl
@[simp] theorem State.send_flOpen (b : Byte) : (s.send b).flOpen = s.flOpen := rfl
@[simp] theorem State.send_fault (b : Byte) : (s.send b).fault = s.fault := rfl
@[simp] theorem State.send_trace (b : Byte) : (s.send b).trace = s.trace ++ [.tx b] := rfl
@[simp] theorem State.send_rx (b : Byte) : (s.send b).rx = s.rx := rfl
@[simp] theorem State.send_oracle (b : Byte) : (s.send b).oracle = s.oracle := rfl
@[simp] theorem State.send_draws (b : Byte) : (s.send b).draws = s.draws := rfl

/-! `State.accumulate` -/

@[simp] theorem State.accumulate_cfg (w : Word) : (s.accumulate w).cfg = s.cfg := rfl
@[simp] theorem State.accumulate_fsm (w : Word) : (s.accumulate w).fsm = s.fsm := rfl
@[simp] theorem State.accumulate_buf (w : Word) : (s.accumulate w).buf = s.buf := rfl
@[simp] theorem State.accumulate_crcAcc (w : Word) : (s.accumulate w).crcAcc = crcStep s.cfg.crcAlg s.crcAcc w := rfl
@[simp] theorem State.accumulate_flOpen (w : Word) : (s.accumulate w).flOpen = s.flOpen := rfl
@[simp] theorem State.accumulate_fault (w : Word) : (s.accumulate w).fault = s.fault := rfl
@[simp] theorem State.accumulate_trace (w : Word) : (s.accumulate w).trace = s.trace ++ [.crcStep w (crcStep s.cfg.crcAlg s.crcAcc w)] := rfl
@[simp] theorem State.accumulate_rx (w : Word) : (s.accumulate w).rx = s.rx := rfl
@[simp] theorem State.accumulate_oracle (w : Word) : (s.accumulate w).oracle = s.oracle := rfl
@[simp] theorem State.accumulate_draws (w : Word) : (s.accumulate w).draws = s.draws := rfl

/-! `State.resetCrc` -/

@[simp] theorem State.resetCrc_cfg : s.resetCrc.cfg = s.cfg := rfl
@[simp] theorem State.resetCrc_fsm : s.resetCrc.fsm = s.fsm := rfl
@[simp] theorem State.resetCrc_buf : s.resetCrc.buf = s.buf := rfl
@[simp] theorem State.resetCrc_crcAcc : s.resetCrc.crcAcc = s.cfg.crcInit := rfl
@[simp] theorem State.resetCrc_flOpen : s.resetCrc.flOpen = s.flOpen := rfl
@[simp] theorem State.resetCrc_fault : s.resetCrc.fault = s.fault := rfl
@[simp] theorem State.resetCrc_trace : s.resetCrc.trace = s.trace ++ [.crcReset] := rfl
@[simp] theorem State.resetCrc_rx : s.resetCrc.rx = s.rx := rfl
@[simp] theorem State.resetCrc_oracle : s.resetCrc.oracle = s.oracle := rfl
@[simp] theorem State.resetCrc_draws : s.resetCrc.draws = s.draws := rfl

/-! `State.flUnlock` -/

@[simp] theorem State.flUnlock_cfg : s.flUnlock.cfg = s.cfg := rfl
@[simp] theorem State.flUnlock_fsm : s.flUnlock.fsm = s.fsm := rfl
@[simp] theorem State.flUnlock_buf : s.flUnlock.buf = s.buf := rfl
@[simp] theorem State.flUnlock_crcAcc : s.flUnlock.crcAcc = s.crcAcc := rfl
@[simp] theorem State.flUnlock_flOpen : s.flUnlock.flOpen = true := rfl
@[simp] theorem State.flUnlock_fault : s.flUnlock.fault = s.fault := rfl
@[simp] theorem State.flUnlock_trace : s.flUnlock.trace = s.trace ++ [.flUnlock s.unlockAnswer] := rfl
@[simp] theorem State.flUnlock_rx : s.flUnlock.rx = s.rx := rfl
@[simp] theorem State.flUnlock_oracle : s.flUnlock.oracle = { s.oracle with unlock := s.oracle.unlock.tail } := rfl
@[simp] theorem State.flUnlock_draws : s.flUnlock.draws = s.draws + 1 := rfl

/-! `State.flLock` -/

@[simp] theorem State.flLock_cfg : s.flLock.cfg = s.cfg := rfl
@[simp] theorem State.flLock_fsm : s.flLock.fsm = s.fsm := rfl
@[simp] theorem State.flLock_buf : s.flLock.buf = s.buf := rfl
@[simp] theorem State.flLock_crcAcc : s.flLock.crcAcc = s.crcAcc := rfl
@[simp] theorem State.flLock_flOpen : s.flLock.flOpen = false := rfl
@[simp] theorem State.flLock_fault : s.flLock.fault = s.fault := rfl
@[simp] theorem State.flLock_trace : s.flLock.trace = s.trace ++ [.flLock s.lockAnswer] := rfl
@[simp] theorem State.flLock_rx : s.flLock.rx = s.rx := rfl
@[simp] theorem State.flLock_oracle : s.flLock.oracle = { s.oracle with lock := s.oracle.lock.tail } := rfl
@[simp] theorem State.flLock_draws : s.flLock.draws = s.draws + 1 := rfl

/-! `State.flProg` -/

@[simp] theorem State.flProg_cfg (a : Word) (v : Byte) : (s.flProg a v).cfg = s.cfg := rfl
@[simp] theorem State.flProg_fsm (a : Word) (v : Byte) : (s.flProg a v).fsm = s.fsm := rfl
@[simp] theorem State.flProg_buf (a : Word) (v : Byte) : (s.flProg a v).buf = s.buf := rfl
@[simp] theorem State.flProg_crcAcc (a : Word) (v : Byte) : (s.flProg a v).crcAcc = s.crcAcc := rfl
@[simp] theorem State.flProg_flOpen (a : Word) (v : Byte) : (s.flProg a v).flOpen = s.flOpen := rfl
@[simp] theorem State.flProg_fault (a : Word) (v : Byte) : (s.flProg a v).fault = s.fault := rfl
@[simp] theorem State.flProg_trace (a : Word) (v : Byte) : (s.flProg a v).trace = s.trace ++ [.flProg a v s.progAnswer] := rfl
@[simp] theorem State.flProg_rx (a : Word) (v : Byte) : (s.flProg a v).rx = s.rx := rfl
@[simp] theorem State.flProg_oracle (a : Word) (v : Byte) : (s.flProg a v).oracle = { s.oracle with prog := s.oracle.prog.tail } := rfl
@[simp] theorem State.flProg_draws (a : Word) (v : Byte) : (s.flProg a v).draws = s.draws + 1 := rfl

/-! `State.flErase` -/

@[simp] theorem State.flErase_cfg (c : EraseCfg) : (s.flErase c).cfg = s.cfg := rfl
@[simp] theorem State.flErase_fsm (c : EraseCfg) : (s.flErase c).fsm = s.fsm := rfl
@[simp] theorem State.flErase_buf (c : EraseCfg) : (s.flErase c).buf = s.buf := rfl
@[simp] theorem State.flErase_crcAcc (c : EraseCfg) : (s.flErase c).crcAcc = s.crcAcc := rfl
@[simp] theorem State.flErase_flOpen (c : EraseCfg) : (s.flErase c).flOpen = s.flOpen := rfl
@[simp] theorem State.flErase_fault (c : EraseCfg) : (s.flErase c).fault = s.fault := rfl
@[simp] theorem State.flErase_trace (c : EraseCfg) : (s.flErase c).trace = s.trace ++ [.flErase c s.eraseAnswer.1 s.eraseAnswer.2] := rfl
@[simp] theorem State.flErase_rx (c : EraseCfg) : (s.flErase c).rx = s.rx := rfl
@[simp] theorem State.flErase_oracle (c : EraseCfg) : (s.flErase c).oracle = { s.oracle with erase := s.oracle.erase.tail } := rfl
@[simp] theorem State.flErase_draws (c : EraseCfg) : (s.flErase c).draws = s.draws + 1 := rfl

/-! `State.optRead` -/

@[simp] theorem State.optRead_cfg : s.optRead.cfg = s.cfg := rfl
@[simp] theorem State.optRead_fsm : s.optRead.fsm = s.fsm := rfl
@[simp] theorem State.optRead_buf : s.optRead.buf = s.buf := rfl
@[simp] theorem State.optRead_crcAcc : s.optRead.crcAcc = s.crcAcc := rfl
@[simp] theorem State.optRead_flOpen : s.optRead.flOpen = s.flOpen := rfl
@[simp] theorem State.optRead_fault : s.optRead.fault = s.fault := rfl
@[simp] theorem State.optRead_trace : s.optRead.trace = s.trace ++ [.optRead s.optAnswer] := rfl
@[simp] theorem State.optRead_rx : s.optRead.rx = s.rx := rfl
@[simp] theorem State.optRead_oracle : s.optRead.oracle = { s.oracle with opt := s.oracle.opt.tail } := rfl
@[simp] theorem State.optRead_draws : s.optRead.draws = s.draws + 1 := rfl

/-! `State.idRead` -/

@[simp] theorem State.idRead_cfg : s.idRead.cfg = s.cfg := rfl
@[simp] theorem State.idRead_fsm : s.idRead.fsm = s.fsm := rfl
@[simp] theorem State.idRead_buf : s.idRead.buf = s.buf := rfl
@[simp] theorem State.idRead_crcAcc : s.idRead.crcAcc = s.crcAcc := rfl
@[simp] theorem State.idRead_flOpen : s.idRead.flOpen = s.flOpen := rfl
@[simp] theorem State.idRead_fault : s.idRead.fault = s.fault := rfl
@[simp] theorem State.idRead_trace : s.idRead.trace = s.trace ++ [.idRead s.idAnswer] := rfl
@[simp] theorem State.idRead_rx : s.idRead.rx = s.rx := rfl
@[simp] theorem State.idRead_oracle : s.idRead.oracle = { s.oracle with ident := s.oracle.ident.tail } := rfl
@[simp] theorem State.idRead_draws : s.idRead.draws = s.draws + 1 := rfl

/-! `State.handOff` -/

@[simp] theorem State.handOff_cfg (t : Word) : (s.handOff t).cfg = s.cfg := rfl
@[simp] theorem State.handOff_fsm (t : Word) : (s.handOff t).fsm = .handoff := rfl
@[simp] theorem State.handOff_buf (t : Word) : (s.handOff t).buf = s.buf := rfl
@[simp] theorem State.handOff_crcAcc (t : Word) : (s.handOff t).crcAcc = s.crcAcc := rfl
@[simp] theorem State.handOff_flOpen (t : Word) : (s.handOff t).flOpen = s.flOpen := rfl
@[simp] theorem State.handOff_fault (t : Word) : (s.handOff t).fault = s.fault := rfl
@[simp] theorem State.handOff_trace (t : Word) : (s.handOff t).trace = s.trace ++ [.handoff t] := rfl
@[simp] theorem State.handOff_rx (t : Word) : (s.handOff t).rx = s.rx := rfl
@[simp] theorem State.handOff_oracle (t : Word) : (s.handOff t).oracle = s.oracle := rfl
@[simp] theorem State.handOff_draws (t : Word) : (s.handOff t).draws = s.draws := rfl

/-! `State.raise` -/

@[simp] theorem State.raise_cfg (r : Fault) : (s.raise r).cfg = s.cfg := rfl
@[simp] theorem State.raise_fsm (r : Fault) : (s.raise r).fsm = .fault := rfl
@[simp] theorem State.raise_buf (r : Fault) : (s.raise r).buf = s.buf := rfl
@[simp] theorem State.raise_crcAcc (r : Fault) : (s.raise r).crcAcc = s.crcAcc := rfl
@[simp] theorem State.raise_flOpen (r : Fault) : (s.raise r).flOpen = s.flOpen := rfl
@[simp] theorem State.raise_fault (r : Fault) : (s.raise r).fault = some (s.fault.getD r) := rfl
@[simp] theorem State.raise_trace (r : Fault) : (s.raise r).trace = s.trace ++ [.fault r] := rfl
@[simp] theorem State.raise_rx (r : Fault) : (s.raise r).rx = s.rx := rfl
@[simp] theorem State.raise_oracle (r : Fault) : (s.raise r).oracle = s.oracle := rfl
@[simp] theorem State.raise_draws (r : Fault) : (s.raise r).draws = s.draws := rfl

/-! `State.goOn` -/

@[simp] theorem State.goOn_cfg (c : Byte) (l : List Act) : (s.goOn c l).cfg = s.cfg := rfl
@[simp] theorem State.goOn_fsm (c : Byte) (l : List Act) : (s.goOn c l).fsm = .exec c l := rfl
@[simp] theorem State.goOn_buf (c : Byte) (l : List Act) : (s.goOn c l).buf = s.buf := rfl
@[simp] theorem State.goOn_crcAcc (c : Byte) (l : List Act) : (s.goOn c l).crcAcc = s.crcAcc := rfl
@[simp] theorem State.goOn_flOpen (c : Byte) (l : List Act) : (s.goOn c l).flOpen = s.flOpen := rfl
@[simp] theorem State.goOn_fault (c : Byte) (l : List Act) : (s.goOn c l).fault = s.fault := rfl
@[simp] theorem State.goOn_trace (c : Byte) (l : List Act) : (s.goOn c l).trace = s.trace := rfl
@[simp] theorem State.goOn_rx (c : Byte) (l : List Act) : (s.goOn c l).rx = s.rx := rfl
@[simp] theorem State.goOn_oracle (c : Byte) (l : List Act) : (s.goOn c l).oracle = s.oracle := rfl
@[simp] theorem State.goOn_draws (c : Byte) (l : List Act) : (s.goOn c l).draws = s.draws := rfl

/-! `State.toIdle` -/

@[simp] theorem State.toIdle_cfg : s.toIdle.cfg = s.cfg := rfl
@[simp] theorem State.toIdle_fsm : s.toIdle.fsm = .idle := rfl
@[simp] theorem State.toIdle_buf : s.toIdle.buf = s.buf := rfl
@[simp] theorem State.toIdle_crcAcc : s.toIdle.crcAcc = s.crcAcc := rfl
@[simp] theorem State.toIdle_flOpen : s.toIdle.flOpen = s.flOpen := rfl
@[simp] theorem State.toIdle_fault : s.toIdle.fault = s.fault := rfl
@[simp] theorem State.toIdle_trace : s.toIdle.trace = s.trace := rfl
@[simp] theorem State.toIdle_rx : s.toIdle.rx = s.rx := rfl
@[simp] theorem State.toIdle_oracle : s.toIdle.oracle = s.oracle := rfl
@[simp] theorem State.toIdle_draws : s.toIdle.draws = s.draws := rfl

end Sys2Proof.Machine
end

