-- ==== Sys2Proof/Laws/Ops.lean ====
section
/-! SUPPORT. What the actions do, and how a handler is run to its end: `finish` goes on with the first action left, so that no
later proof needs to count moves; and the gate, the program loop and a list of sends each in one lemma. -/

namespace Sys2Proof.Machine

/-! ### Running to the end -/

@[simp] theorem todoWeight_nil : todoWeight [] = 0 := rfl

@[simp] theorem todoWeight_cons (a : Act) (l : List Act) : todoWeight (a :: l) = a.weight + todoWeight l := rfl

theorem progNext_weight (a : Word) (bs : List Byte) : (progNext a bs).weight ≤ bs.length + 2 := by
  cases bs <;> simp [progNext, Act.weight]

/-- After an action is performed the handler goes on in the same code with less to do, or it has stopped for good. -/
theorem perform_cases (a : Act) (c : Byte) (rest : List Act) (s : State) :
    (∃ todo, (a.perform c rest s).fsm = .exec c todo ∧ todoWeight todo < a.weight + todoWeight rest) ∨
      (a.perform c rest s).fsm = .handoff ∨ (a.perform c rest s).fsm = .fault := by
  cases a with
  | gate =>
    simp only [Act.perform, State.gateLength]
    split
    · exact .inr (.inr rfl)
    · split
      · exact .inl ⟨_, rfl, by simp [Act.weight]; omega⟩
      · exact .inl ⟨_, rfl, by simp [Act.weight]⟩
  | feed i =>
    simp only [Act.perform, State.gateFeed]
    split
    · exact .inr (.inr rfl)
    · refine .inl ⟨_, rfl, ?_⟩
      split
      · rename_i h
        have hL : s.coveredLen ≤ 252 := by
          have := (s.buf.read 0).isLt
          simp only [State.coveredLen, State.frameLen]
          omega
        simp [Act.weight]
        omega
      · simp [Act.weight]
  | crcReset => exact .inl ⟨_, rfl, by simp [Act.weight]⟩
  | compare acc =>
    simp only [Act.perform, State.gateCompare]
    split
    · exact .inr (.inr rfl)
    · refine .inl ⟨_, rfl, ?_⟩
      split <;> simp [Act.weight]
      omega
  | tx b => exact .inl ⟨_, rfl, by simp [Act.weight]⟩
  | readId => exact .inl ⟨_, rfl, by simp [Act.weight]; omega⟩
  | readOpt => exact .inl ⟨_, rfl, by simp [Act.weight]⟩
  | goTo address =>
    refine .inl ⟨_, rfl, ?_⟩
    split <;> simp [Act.weight]
    omega
  | handoff t => exact .inr (.inl rfl)
  | erase ps pc =>
    simp only [Act.perform, State.eraseChecked]
    split <;> exact .inl ⟨_, rfl, by simp [Act.weight]⟩
  | eraseUnlock cfg => exact .inl ⟨_, rfl, by simp [Act.weight]⟩
  | eraseRun cfg => exact .inl ⟨_, rfl, by simp [Act.weight]⟩
  | eraseLock err => exact .inl ⟨_, rfl, by simp [Act.weight]⟩
  | write address payload =>
    simp only [Act.perform, State.writeChecked]
    split
    · split
      · exact .inr (.inr rfl)
      · exact .inl ⟨_, rfl, by simp [Act.weight]⟩
    · exact .inl ⟨_, rfl, by simp [Act.weight]⟩
  | progUnlock address payload =>
    simp only [Act.perform, State.progUnlocked]
    split
    · refine .inl ⟨_, rfl, ?_⟩
      have := progNext_weight address payload
      simp only [todoWeight_cons, show (Act.progUnlock address payload).weight = payload.length + 3 from rfl]
      omega
    · exact .inl ⟨_, rfl, by simp [Act.weight]⟩
  | progByte address b bs =>
    refine .inl ⟨_, rfl, ?_⟩
    have := progNext_weight (address + 1) bs
    simp only [todoWeight_cons, show (Act.progByte address b bs).weight = bs.length + 3 from rfl]
    split
    · omega
    · simp [Act.weight]
  | progLock => exact .inl ⟨_, rfl, by simp [Act.weight]⟩
  | progAbort => exact .inl ⟨_, rfl, by simp [Act.weight]⟩

/-- An action that ends in S_FAULT has raised BUF_OOB and changed nothing else; it reads the buffer past its end (R264). -/
theorem perform_fault {a : Act} {c : Byte} {rest : List Act} {s : State} (h : (a.perform c rest s).fsm = .fault) :
    a.perform c rest s = s.raise .bufOob ∧ ∃ k, a.lastRead s = some k ∧ s.cfg.bufCap ≤ k := by
  cases a with
  | gate =>
    simp only [Act.perform, State.gateLength, State.bufByte?] at h ⊢
    by_cases hk : 0 < s.cfg.bufCap
    · rw [if_pos hk] at h
      dsimp only at h
      split at h <;> cases h
    · exact ⟨by rw [if_neg hk], 0, rfl, by omega⟩
  | feed i =>
    simp only [Act.perform, State.gateFeed, State.bufByte?] at h ⊢
    by_cases hk : i < s.cfg.bufCap
    · rw [if_pos hk] at h
      cases h
    · exact ⟨by rw [if_neg hk], i, rfl, by omega⟩
  | compare acc =>
    simp only [Act.perform, State.gateCompare, State.bufWord?] at h ⊢
    by_cases hk : s.frameLen - 3 + 3 < s.cfg.bufCap
    · rw [if_pos hk] at h
      cases h
    · exact ⟨by rw [if_neg hk], _, rfl, by omega⟩
  | write address payload =>
    simp only [Act.perform, State.writeChecked] at h ⊢
    split at h
    · rename_i hv
      split at h
      · rename_i hk
        exact ⟨by rw [if_pos hv, if_pos hk], _, if_pos hv, hk⟩
      · cases h
    · cases h
  | erase ps pc =>
    simp only [Act.perform, State.eraseChecked] at h
    split at h <;> cases h
  | progUnlock address payload =>
    simp only [Act.perform, State.progUnlocked] at h
    split at h <;> cases h
  | crcReset => cases h
  | tx b => cases h
  | readId => cases h
  | readOpt => cases h
  | goTo address => cases h
  | handoff t => cases h
  | eraseUnlock cfg => cases h
  | eraseRun cfg => cases h
  | eraseLock err => cases h
  | progByte address b bs => cases h
  | progLock => cases h
  | progAbort => cases h

/-- A move inside a handler leaves fewer moves. -/
theorem advance_movesLeft {s : State} {c : Byte} {todo : List Act} (h : s.fsm = .exec c todo) :
    s.advance.movesLeft < s.movesLeft := by
  cases todo with
  | nil => simp [State.advance, State.movesLeft, h]
  | cons a rest =>
    have hs : s.advance = a.perform c rest s := by simp [State.advance, h]
    rw [hs]
    rcases perform_cases a c rest s with ⟨todo, hf, hw⟩ | hf | hf
    · simp only [State.movesLeft, hf, h, todoWeight_cons]
      omega
    · simp [State.movesLeft, hf, h]
    · simp [State.movesLeft, hf, h]

theorem advanceBy_enough {n m : Nat} {s : State} (hn : s.movesLeft ≤ n) (hm : s.movesLeft ≤ m) :
    s.advanceBy n = s.advanceBy m := by
  induction n generalizing s m with
  | zero =>
    cases m with
    | zero => rfl
    | succ m =>
      simp only [State.advanceBy]
      split
      · rename_i h
        simp [State.movesLeft, h] at hn
      · rfl
  | succ n ih =>
    cases m with
    | zero =>
      simp only [State.advanceBy]
      split
      · rename_i h
        simp [State.movesLeft, h] at hm
      · rfl
    | succ m =>
      simp only [State.advanceBy]
      split
      · rename_i h
        have := advance_movesLeft h
        exact ih (by omega) (by omega)
      · rfl

/-- Inside a handler, running to the end is one move and then running to the end. -/
theorem finish_of_exec {s : State} {c : Byte} {todo : List Act} (h : s.fsm = .exec c todo) :
    s.finish = s.advance.finish := by
  have hm : s.movesLeft = todoWeight todo + 1 := by simp [State.movesLeft, h]
  have hlt := advance_movesLeft h
  unfold State.finish
  conv_lhs => rw [hm]
  simp only [State.advanceBy, h]
  exact advanceBy_enough (by omega) (Nat.le_refl _)

/-- Outside a handler there is nothing to run. -/
theorem finish_of_not_exec {s : State} (h : ∀ c todo, s.fsm ≠ .exec c todo) : s.finish = s := by
  have hm : s.movesLeft = 0 := by
    unfold State.movesLeft
    split
    · rename_i hf
      exact absurd hf (h _ _)
    · rfl
  simp [State.finish, hm, State.advanceBy]

/-- The next action is performed, and the handler goes on. -/
theorem finish_goOn_cons (s : State) (c : Byte) (a : Act) (rest : List Act) :
    (s.goOn c (a :: rest)).finish = (a.perform c rest (s.goOn c (a :: rest))).finish := by
  rw [finish_of_exec (c := c) (todo := a :: rest) rfl]
  rfl

/-- With nothing left the handler returns (R137). -/
theorem finish_goOn_nil (s : State) (c : Byte) : (s.goOn c []).finish = s.toIdle := by
  rw [finish_of_exec (c := c) (todo := []) rfl, finish_of_not_exec]
  · rfl
  · intro c' todo h
    cases h

/-- A handler always ends: in S_IDLE, S_HANDOFF or S_FAULT (R136). -/
theorem finish_fsm {s : State} {c : Byte} {todo : List Act} (h : s.fsm = .exec c todo) :
    s.finish.fsm = .idle ∨ s.finish.fsm = .handoff ∨ s.finish.fsm = .fault := by
  induction hn : s.movesLeft using Nat.strong_induction_on generalizing s todo with
  | _ n ih =>
    rw [finish_of_exec h]
    have hlt := advance_movesLeft h
    cases todo with
    | nil =>
      have hs : s.advance = s.toIdle := by simp [State.advance, h]
      rw [hs, finish_of_not_exec (by intro c' t h'; cases h')]
      exact .inl rfl
    | cons a rest =>
      have hs : s.advance = a.perform c rest s := by simp [State.advance, h]
      rw [hs] at hlt ⊢
      rcases perform_cases a c rest s with ⟨todo, hf, -⟩ | hf | hf
      · exact ih _ (by omega) hf rfl
      · rw [finish_of_not_exec (by intro c' t h'; rw [hf] at h'; cases h')]
        exact .inr (.inl hf)
      · rw [finish_of_not_exec (by intro c' t h'; rw [hf] at h'; cases h')]
        exact .inr (.inr hf)

/-- What every move keeps and the return keeps, the whole handler keeps. -/
theorem finish_induction {P : State → Prop} (s : State) (h0 : P s)
    (hstep : ∀ s c todo, s.fsm = .exec c todo → P s → P s.advance) : P s.finish := by
  induction hn : s.movesLeft using Nat.strong_induction_on generalizing s with
  | _ n ih =>
    cases hf : s.fsm with
    | exec c todo =>
      rw [finish_of_exec hf]
      have hlt := advance_movesLeft hf
      exact ih _ (by omega) _ (hstep s c todo hf h0) rfl
    | _ =>
      rw [finish_of_not_exec (by intro c' t h'; rw [hf] at h'; cases h')]
      exact h0

/-- What every action leaves alone, and that it only appends to the trace (R23, R29, R10). -/
theorem perform_frame (a : Act) (c : Byte) (rest : List Act) (s : State) :
    (a.perform c rest s).cfg = s.cfg ∧ (a.perform c rest s).buf = s.buf ∧ (a.perform c rest s).rx = s.rx ∧
      ∃ evs, (a.perform c rest s).trace = s.trace ++ evs := by
  cases a <;>
    simp only [Act.perform, State.gateLength, State.gateFeed, State.gateReset, State.gateCompare, State.sendId,
      State.sendOpt, State.goToChecked, State.eraseChecked, State.eraseUnlocked, State.eraseDone, State.eraseLocked,
      State.writeChecked, State.progUnlocked, State.progStepped, State.progLocked, State.progAborted] <;>
    (repeat' split) <;>
    first
      | exact ⟨rfl, rfl, rfl, _, rfl⟩
      | exact ⟨rfl, rfl, rfl, [], (List.append_nil _).symm⟩

/-- What every handler leaves alone, and that it only appends to the trace. -/
theorem finish_frame (s : State) :
    s.finish.cfg = s.cfg ∧ s.finish.buf = s.buf ∧ s.finish.rx = s.rx ∧ ∃ evs, s.finish.trace = s.trace ++ evs := by
  refine finish_induction
    (P := fun u => u.cfg = s.cfg ∧ u.buf = s.buf ∧ u.rx = s.rx ∧ ∃ evs, u.trace = s.trace ++ evs) s
    ⟨rfl, rfl, rfl, [], (List.append_nil _).symm⟩ ?_
  intro u c todo hf ⟨h1, h2, h3, evs, h4⟩
  cases todo with
  | nil =>
    simp only [State.advance, hf]
    exact ⟨h1, h2, h3, _, h4⟩
  | cons a rest =>
    simp only [State.advance, hf]
    obtain ⟨g1, g2, g3, evs', g4⟩ := perform_frame a c rest u
    exact ⟨g1.trans h1, g2.trans h2, g3.trans h3, evs ++ evs', by rw [g4, h4, List.append_assoc]⟩

/-! ### Sends -/

@[simp] theorem goOn_goOn (s : State) (c c' : Byte) (l l' : List Act) : (s.goOn c l).goOn c' l' = s.goOn c' l' := rfl

theorem sent_nil (s : State) : s.sent [] = s := by simp [State.sent]

/-- Sending a list of bytes and going on. -/
theorem finish_sends (s : State) (c : Byte) (bs : List Byte) (rest : List Act) :
    (s.goOn c (sends bs ++ rest)).finish = ((s.sent bs).goOn c rest).finish := by
  induction bs generalizing s with
  | nil => simp [sends, State.sent]
  | cons b bs ih =>
    have h := finish_goOn_cons s c (.tx b) (sends bs ++ rest)
    have e : sends (b :: bs) ++ rest = .tx b :: (sends bs ++ rest) := rfl
    rw [e, h]
    have e' : Act.perform (.tx b) c (sends bs ++ rest) (s.goOn c (.tx b :: (sends bs ++ rest))) =
        (s.send b).goOn c (sends bs ++ rest) := rfl
    rw [e', ih]
    congr 2
    simp [State.sent, State.send, State.emit]

/-- Sending a list of bytes and returning. -/
theorem finish_sends_last (s : State) (c : Byte) (bs : List Byte) :
    (s.goOn c (sends bs)).finish = (s.sent bs).toIdle := by
  have := finish_sends s c bs []
  rw [List.append_nil] at this
  rw [this, finish_goOn_nil]

/-! ### The gate -/

theorem crcEvents_append (alg : CrcAlg) (acc : Word) (xs ys : List Byte) :
    crcEvents alg acc (xs ++ ys) = crcEvents alg acc xs ++ crcEvents alg (crcOf alg acc xs) ys := by
  induction xs generalizing acc with
  | nil => rfl
  | cons x xs ih => simp [crcEvents, crcOf, ih]

theorem crcEvents_mem {alg : CrcAlg} {acc : Word} {bs : List Byte} {e : Event} (h : e ∈ crcEvents alg acc bs) :
    ∃ w v, e = .crcStep w v := by
  induction bs generalizing acc with
  | nil => cases h
  | cons b bs ih =>
    simp only [crcEvents, List.mem_cons] at h
    rcases h with rfl | h
    · exact ⟨_, _, rfl⟩
    · exact ih h

/-- The accumulator after the first `n` bytes, as a loop over their indexes: each byte is fed as zext_32 (R113). -/
theorem crcOf_bytesAt (alg : CrcAlg) (acc : Word) (rd : Nat → Byte) (n : Nat) :
    crcOf alg acc (bytesAt rd 0 n) = (List.range n).foldl (fun v k => crcStep alg v ((rd k).zeroExtend 32)) acc := by
  induction n with
  | zero => rfl
  | succ n ih =>
    rw [bytesAt_split rd 0 n (n + 1) (by omega), Nat.zero_add, show n + 1 - n - 1 = 0 by omega, bytesAt, crcOf_append, ih,
      List.range_succ, List.foldl_append]
    rfl

/-- The events of feeding the first `n` bytes, index by index (R113). -/
theorem crcEvents_bytesAt (alg : CrcAlg) (acc : Word) (rd : Nat → Byte) (n : Nat) :
    crcEvents alg acc (bytesAt rd 0 n) =
      (List.range n).map fun k => .crcStep ((rd k).zeroExtend 32) (crcOf alg acc (bytesAt rd 0 (k + 1))) := by
  induction n with
  | zero => rfl
  | succ n ih =>
    have hs : bytesAt rd 0 (n + 1) = bytesAt rd 0 n ++ [rd n] := by
      rw [bytesAt_split rd 0 n (n + 1) (by omega), Nat.zero_add, show n + 1 - n - 1 = 0 by omega, bytesAt]
    rw [List.range_succ, List.map_append, ← ih, hs, crcEvents_append]
    simp [hs, crcOf_append, crcEvents, crcOf, crcWord]

/-- A gate issues requests to the accumulator only. -/
theorem gateEvents_mem {s : State} {e : Event} (h : e ∈ s.gateEvents) : (∃ w v, e = .crcStep w v) ∨ e = .crcReset := by
  simp only [State.gateEvents, List.mem_append, List.mem_singleton] at h
  exact h.imp crcEvents_mem id

/-- A read inside the buffer gives the byte there (R12). -/
theorem bufByte?_of_lt {s : State} {i : Nat} (h : i < s.cfg.bufCap) : s.bufByte? i = some (s.buf.read i) :=
  if_pos h

/-- One covered byte is fed (R113). -/
theorem gateFeed_eq {s : State} {i : Nat} (h : i < s.cfg.bufCap) (c : Byte) (rest : List Act) :
    s.gateFeed i c rest = (s.accumulate (crcWord (s.buf.read i))).goOn c
      (if i + 1 < s.coveredLen then .feed (i + 1) :: rest else .crcReset :: rest) := by
  simp only [State.gateFeed, bufByte?_of_lt h]

/-- The length check (R111). -/
theorem gateLength_eq {s : State} (h : 0 < s.cfg.bufCap) (c : Byte) (rest : List Act) :
    s.gateLength c rest =
      s.goOn c (if s.frameLen < Config.minFrameLen then [.tx Config.nack] else .feed 0 :: rest) := by
  simp only [State.gateLength, bufByte?_of_lt h]
  by_cases h5 : s.frameLen < Config.minFrameLen
  · rw [if_pos h5]
    exact if_pos h5
  · rw [if_neg h5]
    exact if_neg h5

/-- The comparison (R115, R116). -/
theorem gateCompare_eq {s : State} (h3 : 3 ≤ s.frameLen) (h : s.frameFits) (acc : Word) (c : Byte) (rest : List Act) :
    s.gateCompare acc c rest = s.goOn c (if acc = s.hostCrc then rest else [.tx Config.nack]) := by
  have hw : s.bufWord? (s.frameLen - 3) = some s.hostCrc := by
    simp only [State.frameFits] at h
    exact if_pos (by omega)
  simp only [State.gateCompare, hw]

/-- Feeding the covered bytes from index `i` on, `k + 1` of them being left. -/
theorem finish_feeds (s : State) (c : Byte) (rest : List Act) (i k : Nat) (hk : i + (k + 1) = s.coveredLen)
    (hcap : s.coveredLen ≤ s.cfg.bufCap) :
    (s.goOn c (.feed i :: rest)).finish =
      ({ s with
          crcAcc := crcOf s.cfg.crcAlg s.crcAcc (bytesAt s.buf.read i (k + 1))
          trace := s.trace ++ crcEvents s.cfg.crcAlg s.crcAcc (bytesAt s.buf.read i (k + 1)) }.goOn c
        (.crcReset :: rest)).finish := by
  have hi : i < (s.goOn c (.feed i :: rest)).cfg.bufCap := by
    show i < s.cfg.bufCap
    omega
  induction k generalizing s i with
  | zero =>
    rw [finish_goOn_cons, Act.perform, gateFeed_eq hi]
    have hl : ¬ i + 1 < (s.goOn c (.feed i :: rest)).coveredLen := by
      show ¬ i + 1 < s.coveredLen
      omega
    rw [if_neg hl]
    rfl
  | succ k ih =>
    rw [finish_goOn_cons, Act.perform, gateFeed_eq hi]
    have hl : i + 1 < (s.goOn c (.feed i :: rest)).coveredLen := by
      show i + 1 < s.coveredLen
      omega
    rw [if_pos hl]
    refine (ih (s.accumulate (crcWord (s.buf.read i))) (i + 1) (by show i + 1 + (k + 1) = s.coveredLen; omega) hcap
      (by show i + 1 < s.cfg.bufCap; omega)).trans ?_
    congr 2
    simp [State.accumulate, bytesAt, crcOf, crcEvents]

/-- A gate that gets past its length check: every covered byte is fed, the accumulator is reset, and the comparison decides
between the rest of the handler and one NACK (R110). -/
theorem finish_gate_long (s : State) (c : Byte) (rest : List Act) (hfit : s.frameFits)
    (hlen : Config.minFrameLen ≤ s.frameLen) :
    (s.goOn c (.gate :: rest)).finish =
      (s.gated.goOn c (if s.gateCrc = s.hostCrc then rest else [.tx Config.nack])).finish := by
  have h5 : 5 ≤ s.frameLen := hlen
  have hcap : s.frameLen < s.cfg.bufCap := hfit
  have hL : s.coveredLen = s.frameLen - 3 := rfl
  rw [finish_goOn_cons, Act.perform, gateLength_eq (by show 0 < s.cfg.bufCap; omega)]
  rw [if_neg (show ¬ (s.goOn c (.gate :: rest)).frameLen < Config.minFrameLen from Nat.not_lt.mpr hlen), goOn_goOn]
  rw [finish_feeds s c rest 0 (s.coveredLen - 1) (by omega) (by omega)]
  rw [show s.coveredLen - 1 + 1 = s.coveredLen by omega, finish_goOn_cons, Act.perform, State.gateReset]
  rw [finish_goOn_cons, Act.perform, gateCompare_eq, goOn_goOn]
  rotate_left
  · show 3 ≤ s.frameLen
    omega
  · exact hfit
  refine congrArg State.finish ?_
  simp only [State.goOn, State.resetCrc, State.gated, State.gateEvents, State.covered, List.append_assoc]
  rfl

/-- A gate that passes: one CrcStep for each covered byte, a CrcReset, and on in the handler (R110 to R116). -/
theorem finish_gate_pass (s : State) (c : Byte) (rest : List Act) (hfit : s.frameFits) (hp : s.gatePasses = true) :
    (s.goOn c (.gate :: rest)).finish = (s.gated.goOn c rest).finish := by
  obtain ⟨hlen, hcrc⟩ : Config.minFrameLen ≤ s.frameLen ∧ s.gateCrc = s.hostCrc := by
    simpa [State.gatePasses] using hp
  rw [finish_gate_long s c rest hfit hlen, if_pos hcrc]

/-- A gate that fails: one NACK, and the handler returns (R111, R117, R137). -/
theorem finish_gate_fail (s : State) (c : Byte) (rest : List Act) (hfit : s.frameFits) (hp : s.gatePasses = false) :
    (s.goOn c (.gate :: rest)).finish = s.nacked := by
  have hcap : s.frameLen < s.cfg.bufCap := hfit
  unfold State.nacked
  by_cases hn : s.frameLen < Config.minFrameLen
  · rw [finish_goOn_cons, Act.perform, gateLength_eq (by show 0 < s.cfg.bufCap; omega)]
    rw [if_pos (show (s.goOn c (.gate :: rest)).frameLen < Config.minFrameLen from hn), if_pos hn, goOn_goOn]
    exact finish_sends_last s c [Config.nack]
  · have hcrc : ¬ s.gateCrc = s.hostCrc := by
      simpa [State.gatePasses, Nat.le_of_not_lt hn] using hp
    rw [finish_gate_long s c rest hfit (Nat.le_of_not_lt hn), if_neg hcrc, if_neg hn]
    exact finish_sends_last s.gated c [Config.nack]

/-- A handler whose gate passes: what it does after the gate (R118). -/
theorem runHandler_pass (s : State) (c : Byte) (rest : List Act) (hfit : s.frameFits) (hp : s.gatePasses = true) :
    runHandler c (.gate :: rest) s = .next (s.gated.goOn c rest).finish := by
  rw [runHandler, finish_gate_pass s c rest hfit hp]

/-- A handler whose gate fails. -/
theorem runHandler_fail (s : State) (c : Byte) (rest : List Act) (hfit : s.frameFits) (hp : s.gatePasses = false) :
    runHandler c (.gate :: rest) s = .next s.nacked := by
  rw [runHandler, finish_gate_fail s c rest hfit hp]

/-- A handler whose gate passes and that only sends bytes. -/
theorem runHandler_sends (s : State) (c : Byte) (bs : List Byte) (hfit : s.frameFits) (hp : s.gatePasses = true) :
    runHandler c (.gate :: sends bs) s = .next (s.replied bs) := by
  rw [runHandler_pass s c _ hfit hp, finish_sends_last]
  rfl

/-- A handler whose gate passes and that goes on after its ACK. -/
theorem runHandler_ack (s : State) (c : Byte) (bs : List Byte) (rest : List Act) (hfit : s.frameFits)
    (hp : s.gatePasses = true) :
    runHandler c (.gate :: (sends bs ++ rest)) s = .next ((s.gated.sent bs).goOn c rest).finish := by
  rw [runHandler_pass s c _ hfit hp, finish_sends]

/-! ### The actions after the gate -/

section
variable {s : State} {a : Word} (c : Byte) (rest : List Act)

/-- A send (R12). -/
theorem finish_tx (s : State) (b : Byte) :
    (s.goOn c (.tx b :: rest)).finish = ((s.send b).goOn c rest).finish :=
  finish_goOn_cons s c (.tx b) rest

/-- The handoff, after which nothing is left to run (R206). -/
theorem finish_handoff (s : State) (t : Word) : (s.goOn c (.handoff t :: rest)).finish = s.handOff t := by
  rw [finish_goOn_cons, finish_of_not_exec]
  · rfl
  · intro c' l h
    cases h

/-- GoToAddr's check on a valid address (R203). -/
theorem finish_goTo_valid (h : validate s.cfg a = true) :
    (s.goOn c (.goTo a :: rest)).finish = ((s.send s.cfg.stAddrValid).handOff (a + 1)) := by
  have e : Act.perform (.goTo a) c rest (s.goOn c (.goTo a :: rest)) =
      s.goOn c (.tx s.cfg.stAddrValid :: .handoff (a + 1) :: rest) := by
    simp [Act.perform, State.goToChecked, h]
  rw [finish_goOn_cons, e, finish_tx, finish_handoff]

/-- GoToAddr's check on an invalid address (R205). -/
theorem finish_goTo_invalid (h : validate s.cfg a = false) :
    (s.goOn c (.goTo a :: rest)).finish = ((s.send s.cfg.stAddrInvalid).goOn c rest).finish := by
  have e : Act.perform (.goTo a) c rest (s.goOn c (.goTo a :: rest)) = s.goOn c (.tx s.cfg.stAddrInvalid :: rest) := by
    simp [Act.perform, State.goToChecked, h]
  rw [finish_goOn_cons, e, finish_tx]

/-- ERASE's checks, one of them failed (R162, R164). -/
theorem finish_erase_invalid {ps pc : Byte} (h : eraseCfg? s.cfg ps pc = none) :
    (s.goOn c (.erase ps pc :: rest)).finish = ((s.send s.cfg.stEraseInvalid).goOn c rest).finish := by
  have e : Act.perform (.erase ps pc) c rest (s.goOn c (.erase ps pc :: rest)) =
      s.goOn c (.tx s.cfg.stEraseInvalid :: rest) := by
    simp [Act.perform, State.eraseChecked, h]
  rw [finish_goOn_cons, e, finish_tx]

/-- ERASE with its checks passed: unlock, erase, lock, and the status byte (R166, R167). -/
theorem finish_erase_valid {ps pc : Byte} {e : EraseCfg} (h : eraseCfg? s.cfg ps pc = some e) :
    (s.goOn c (.erase ps pc :: rest)).finish =
      (((s.erased e).send (eraseStatus s.cfg s.flUnlock.eraseAnswer.2)).goOn c rest).finish := by
  have e1 : Act.perform (.erase ps pc) c rest (s.goOn c (.erase ps pc :: rest)) = s.goOn c (.eraseUnlock e :: rest) := by
    simp [Act.perform, State.eraseChecked, h]
  rw [finish_goOn_cons, e1, finish_goOn_cons, Act.perform, State.eraseUnlocked, finish_goOn_cons, Act.perform,
    State.eraseDone, finish_goOn_cons, Act.perform, State.eraseLocked, finish_tx]
  rfl

/-- MemWrite's check on an invalid address (R170). -/
theorem finish_write_invalid (h : validate s.cfg a = false) (p : List Byte) :
    (s.goOn c (.write a p :: rest)).finish = ((s.send s.cfg.stAddrInvalid).goOn c rest).finish := by
  have e : Act.perform (.write a p) c rest (s.goOn c (.write a p :: rest)) =
      s.goOn c (.tx s.cfg.stAddrInvalid :: rest) := by
    simp [Act.perform, State.writeChecked, h]
  rw [finish_goOn_cons, e, finish_tx]

/-- MemWrite's payload reaches past the buffer (R264). -/
theorem finish_write_past {p : List Byte} (h : validate s.cfg a = true) (hp : s.cfg.bufCap ≤ 6 + p.length) :
    (s.goOn c (.write a p :: rest)).finish = s.raise .bufOob := by
  have e : Act.perform (.write a p) c rest (s.goOn c (.write a p :: rest)) = s.raise .bufOob := by
    simp only [Act.perform, State.writeChecked]
    exact (if_pos h).trans (if_pos hp)
  rw [finish_goOn_cons, e, finish_of_not_exec]
  intro c' l h'
  cases h'

/-- MemWrite goes on to PROGRAM (R170). -/
theorem finish_write_valid {p : List Byte} (h : validate s.cfg a = true) (hp : 6 + p.length < s.cfg.bufCap) :
    (s.goOn c (.write a p :: rest)).finish = (s.goOn c (.progUnlock a p :: rest)).finish := by
  have e : Act.perform (.write a p) c rest (s.goOn c (.write a p :: rest)) = s.goOn c (.progUnlock a p :: rest) := by
    simp only [Act.perform, State.writeChecked]
    exact (if_pos h).trans (if_neg (Nat.not_le.mpr hp))
  rw [finish_goOn_cons, e]

/-- PROGRAM's unlock succeeded. -/
theorem finish_progUnlock_ok (h : s.unlockAnswer = .ok) (a : Word) (p : List Byte) :
    (s.goOn c (.progUnlock a p :: rest)).finish = (s.flUnlock.goOn c (progNext a p :: rest)).finish := by
  have e : Act.perform (.progUnlock a p) c rest (s.goOn c (.progUnlock a p :: rest)) =
      s.flUnlock.goOn c (progNext a p :: rest) := by
    simp only [Act.perform, State.progUnlocked]
    exact if_pos h
  rw [finish_goOn_cons, e]

/-- PROGRAM's unlock failed (R172). -/
theorem finish_progUnlock_err (h : s.unlockAnswer ≠ .ok) (a : Word) (p : List Byte) :
    (s.goOn c (.progUnlock a p :: rest)).finish =
      ((({ s.flUnlock with flOpen := false } : State).send s.cfg.stWriteFail).goOn c rest).finish := by
  have e : Act.perform (.progUnlock a p) c rest (s.goOn c (.progUnlock a p :: rest)) =
      ({ s.flUnlock with flOpen := false } : State).goOn c (.tx s.cfg.stWriteFail :: rest) := by
    simp only [Act.perform, State.progUnlocked]
    exact if_neg h
  rw [finish_goOn_cons, e, finish_tx]

/-- A byte was programmed (R173). -/
theorem finish_progByte_ok (h : s.progAnswer = .ok) (a : Word) (b : Byte) (bs : List Byte) :
    (s.goOn c (.progByte a b bs :: rest)).finish = ((s.flProg a b).goOn c (progNext (a + 1) bs :: rest)).finish := by
  have e : Act.perform (.progByte a b bs) c rest (s.goOn c (.progByte a b bs :: rest)) =
      (s.flProg a b).goOn c ((if s.progAnswer = .ok then progNext (a + 1) bs else .progAbort) :: rest) := rfl
  rw [finish_goOn_cons, e, if_pos h]

/-- A byte failed: the lock, whatever its status, and ST_WRITE_FAIL (R174). -/
theorem finish_progByte_err (h : s.progAnswer ≠ .ok) (a : Word) (b : Byte) (bs : List Byte) :
    (s.goOn c (.progByte a b bs :: rest)).finish =
      (((s.flProg a b).flLock.send s.cfg.stWriteFail).goOn c rest).finish := by
  have e : Act.perform (.progByte a b bs) c rest (s.goOn c (.progByte a b bs :: rest)) =
      (s.flProg a b).goOn c ((if s.progAnswer = .ok then progNext (a + 1) bs else .progAbort) :: rest) := rfl
  rw [finish_goOn_cons, e, if_neg h, finish_goOn_cons, Act.perform, State.progAborted, finish_tx]
  rfl

/-- Every byte was programmed: the lock, whose status decides (R175). -/
theorem finish_progLock (s : State) :
    (s.goOn c (.progLock :: rest)).finish = ((s.flLock.send (writeStatus s.cfg s.lockAnswer)).goOn c rest).finish := by
  rw [finish_goOn_cons, Act.perform, State.progLocked, finish_tx]
  rfl

end

/-- The program loop, its lock and the status byte, as `programBytes` says (R171). -/
theorem finish_progNext (s : State) (c : Byte) (rest : List Act) (a : Word) (bs : List Byte) :
    (s.goOn c (progNext a bs :: rest)).finish =
      match s.programBytes a bs with
      | (u, true) => ((u.flLock.send (writeStatus u.cfg u.lockAnswer)).goOn c rest).finish
      | (u, false) => ((u.flLock.send u.cfg.stWriteFail).goOn c rest).finish := by
  induction bs generalizing s a with
  | nil => exact finish_progLock c rest s
  | cons b bs ih =>
    simp only [progNext, State.programBytes]
    by_cases h : s.progAnswer = .ok
    · rw [if_pos h, finish_progByte_ok c rest h]
      exact ih (s.flProg a b) (a + 1)
    · rw [if_neg h, finish_progByte_err c rest h]
      rfl

theorem programBytes_cfg (s : State) (a : Word) (bs : List Byte) : (s.programBytes a bs).1.cfg = s.cfg := by
  induction bs generalizing s a with
  | nil => rfl
  | cons b bs ih =>
    unfold State.programBytes
    split
    · exact ih _ _
    · rfl

/-- Every byte of the payload is programmed where every answer is OK (R173). -/
theorem programBytes_ok (s : State) (a : Word) (p : List Byte)
    (h : ∀ j, j < p.length → s.oracle.prog.getD j (Config.freeProg (s.draws + j)) = .ok) :
    s.programBytes a p =
      ({ s with
          trace := s.trace ++ progEvents a p
          oracle := { s.oracle with prog := s.oracle.prog.drop p.length }
          draws := s.draws + p.length }, true) := by
  induction p generalizing s a with
  | nil => simp [State.programBytes, progEvents]
  | cons b p ih =>
    have h0 : s.progAnswer = .ok := by
      have := h 0 (by simp)
      unfold State.progAnswer
      revert this
      cases s.oracle.prog <;> simp
    unfold State.programBytes
    rw [if_pos h0, ih]
    · simp [progEvents, State.flProg, h0]
      omega
    · intro j hj
      have := h (j + 1) (by simpa using hj)
      revert this
      simp only [State.flProg]
      rw [show s.draws + (j + 1) = s.draws + 1 + j by omega]
      cases s.oracle.prog <;> simp

theorem nextAddress (a : Word) (j : Nat) :
    BitVec.ofNat 32 ((a + 1).toNat + j) = BitVec.ofNat 32 (a.toNat + (j + 1)) := by
  apply BitVec.eq_of_toNat_eq
  simp [BitVec.toNat_add]
  omega

theorem progEvents_length (a : Word) (p : List Byte) : (progEvents a p).length = p.length := by
  induction p generalizing a with
  | nil => rfl
  | cons x p ih => simp [progEvents, ih]

/-- Byte `j` is programmed at `(a + j) mod 2^32` (R173). -/
theorem progEvents_get (a : Word) (p : List Byte) (j : Nat) (b : Byte) (h : p[j]? = some b) :
    (progEvents a p)[j]? = some (.flProg (BitVec.ofNat 32 (a.toNat + j)) b .ok) := by
  induction p generalizing a j with
  | nil => simp at h
  | cons x p ih =>
    cases j with
    | zero =>
      simp at h
      simp [progEvents, h]
    | succ j =>
      simp at h
      simp only [progEvents, List.getElem?_cons_succ]
      rw [ih (a + 1) j h, nextAddress]

/-- Every instruction's meaning enters its handler and runs it to its end (R130, R136). -/
theorem exec_eq (i : Instr) (s : State) : exec i s = .next (s.enter i).finish := by
  cases i <;> rfl

end Sys2Proof.Machine
end

