-- ==== Sys2Proof/Laws/PerInstr.lean ====
section
/-! SUPPORT. Statements made per instruction. The family FrameCode: the frame of an instruction carries its code in byte 1, and the
code is one of the table's (spec/30_encoding.md rules R71, R77, R86). -/

namespace Sys2Proof.Laws.FrameCode

/-- Byte 1 of the instruction's frame, under any configuration, is its code, and GetHelp's table lists that code. -/
def Statement (i : Instr) : Prop :=
  ∀ cfg : Cfg, (encode cfg i)[1]? = some i.code ∧ i.code ∈ Machine.helpTable

theorem getVersion : Statement .getVersion := fun _ => ⟨rfl, by decide⟩

theorem getHelp : Statement .getHelp := fun _ => ⟨rfl, by decide⟩

theorem getChipId : Statement .getChipId := fun _ => ⟨rfl, by decide⟩

theorem getRdpStatus : Statement .getRdpStatus := fun _ => ⟨rfl, by decide⟩

theorem goToAddr (address : Word) : Statement (.goToAddr address) :=
  fun _ => ⟨rfl, by simp [Instr.code, Machine.helpTable]⟩

theorem flashErase (pageStart pageCount : Byte) : Statement (.flashErase pageStart pageCount) :=
  fun _ => ⟨rfl, by simp [Instr.code, Machine.helpTable]⟩

theorem memWrite (address : Word) (payload : List Byte) : Statement (.memWrite address payload) :=
  fun _ => ⟨rfl, by simp [Instr.code, Machine.helpTable]⟩

theorem enRWProtect : Statement .enRWProtect := fun _ => ⟨rfl, by decide⟩

theorem memRead : Statement .memRead := fun _ => ⟨rfl, by decide⟩

theorem readSectorStatus : Statement .readSectorStatus := fun _ => ⟨rfl, by decide⟩

theorem otpRead : Statement .otpRead := fun _ => ⟨rfl, by decide⟩

theorem changeRopLevel : Statement .changeRopLevel := fun _ => ⟨rfl, by decide⟩

end Sys2Proof.Laws.FrameCode
end

