-- ==== Sys2Proof/Tests/Slice0.lean ====
section
/-! SUPPORT. The model's own tests. Expected results come from spec/95_test_vectors.md (the vector's id stands at each test) or
are worked out by hand from the rule named; and, for every statement with hypotheses, a witness that meets them all. -/

namespace Sys2Proof.Tests

open Sys2Proof.Machine

-- One theorem after another: in parallel, each of them would hold a thread and its stack.
set_option Elab.async false

/-! ### Helpers -/

/-- A frame has just been received, in the example configuration. -/
def loaded (bs : List Byte) : State :=
  { State.reset with fsm := .dispatch, buf := Memory.ofBytes bs }

/-- The collaborators answer as spec/95_test_vectors.md section 0.1 says. -/
def answers : Oracle where
  unlock := [.ok]
  lock := [.ok]
  prog := [.ok, .ok, .ok, .ok]
  erase := [(.ok, 0xFFFFFFFF)]
  opt := [0xA5]
  ident := [0x20036410]
  rxZero := []

/-- A received frame, and collaborators that answer so. -/
def framed (bs : List Byte) : State :=
  { loaded bs with oracle := answers }

/-- The next state, where there is one. -/
def next? : Host.Outcome State Fault Refusal → Option State
  | .next s => some s
  | _ => none

/-- Whether a step is a fault, and which. -/
def fault? : Host.Outcome State Fault Refusal → Option Fault
  | .fault r => some r
  | _ => none

/-- Whether a step is refused, and why. -/
def refused? : Host.Outcome State Fault Refusal → Option Refusal
  | .refused r => some r
  | _ => none

/-- What one step does to the trace. -/
def events (s : State) : List Event :=
  match next? (step s) with
  | some t => t.trace.drop s.trace.length
  | none => []

/-- The bytes one step sends. -/
def reply (s : State) : List Byte :=
  (events s).filterMap fun e => match e with
    | .tx b => some b
    | _ => none

/-- What one step does but for the gate's requests to the accumulator. -/
def work (s : State) : List Event :=
  (events s).filter fun e => match e with
    | .crcStep _ _ => false
    | .crcReset => false
    | _ => true

/-- Where one step leads. -/
def goes (s : State) : Option Fsm :=
  (next? (step s)).map State.fsm

theorem next_of {o : Host.Outcome State Fault Refusal} {s : State} (h : next? o = some s) : o = .next s := by
  cases o with
  | next t =>
    cases h
    rfl
  | fault r => cases h
  | refused r => cases h

theorem fits {s : State} (h : s.frameLen < s.cfg.bufCap) : s.frameFits := h

/-! The frames of spec/95_test_vectors.md. -/

/-- F1, D1. -/
def fVersion : List Byte := [0x05, 0x10, 0x27, 0x84, 0xEC, 0x4C]
/-- F2, X7: the last bit flipped. -/
def fVersionBad : List Byte := [0x05, 0x10, 0x27, 0x84, 0xEC, 0x4D]
/-- F14: a bit of the command flipped. -/
def fVersionCmd : List Byte := [0x05, 0x30, 0x27, 0x84, 0xEC, 0x4C]
/-- D2. -/
def fHelp : List Byte := [0x05, 0x11, 0x90, 0x99, 0x2D, 0x48]
/-- D3. -/
def fChip : List Byte := [0x05, 0x12, 0x49, 0xBF, 0x6E, 0x45]
/-- P6. -/
def fRdp : List Byte := [0x05, 0x13, 0xFE, 0xA2, 0xAF, 0x41]
/-- A1. -/
def fGoto : List Byte := [0x09, 0x14, 0x00, 0x80, 0x00, 0x08, 0xE7, 0x68, 0xC3, 0xCB]
/-- A9. -/
def fGotoBad : List Byte := [0x09, 0x14, 0xFF, 0xFF, 0xFF, 0x1F, 0x07, 0x9E, 0x5F, 0xDD]
/-- E1. -/
def fErase : List Byte := [0x07, 0x15, 0x10, 0x04, 0x97, 0xFD, 0x00, 0x78]
/-- X5, Program 4. -/
def fEraseClamp : List Byte := [0x07, 0x15, 0x3E, 0x05, 0x10, 0xAA, 0xA3, 0x8C]
/-- R163's example. -/
def fMass : List Byte := [0x07, 0x15, 0xFF, 0x00, 0x14, 0xA3, 0x35, 0xD9]
/-- X4, Program 4. -/
def fMassBad : List Byte := [0x07, 0x15, 0xFF, 0x41, 0xD4, 0xCE, 0x72, 0xE9]
/-- W1. -/
def fWrite : List Byte :=
  [0x0E, 0x16, 0x00, 0x80, 0x00, 0x08, 0x04, 0xDE, 0xAD, 0xBE, 0xEF, 0xC8, 0x6C, 0xD5, 0xBA]
/-- W13. -/
def fWriteLong : List Byte := [0x0A, 0x16, 0x00, 0x10, 0x00, 0x08, 0xFA, 0xD8, 0x9A, 0xBA, 0x2A]
/-- W7. -/
def fWriteOut : List Byte := [0x0B, 0x16, 0x00, 0x00, 0x00, 0x30, 0x01, 0xAA, 0x09, 0xAC, 0x23, 0x82]
/-- P1. -/
def fProtect : List Byte := [0x05, 0x17, 0x22, 0xD4, 0xAB, 0x52]
/-- P7. -/
def fMemRead : List Byte := [0x05, 0x18, 0x9F, 0x69, 0xE4, 0x6A]
/-- P8. -/
def fSector : List Byte := [0x05, 0x19, 0x28, 0x74, 0x25, 0x6E]
/-- P9. -/
def fOtp : List Byte := [0x05, 0x20, 0xB7, 0xE9, 0xDE, 0x98]
/-- P4. -/
def fRop : List Byte := [0x05, 0x21, 0x00, 0xF4, 0x1F, 0x9C]
/-- D7: an unknown code. -/
def fUnknown : List Byte := [0x05, 0x22, 0xD9, 0xD2, 0x5C, 0x91]

/-! ### Well-formedness: each check refuses an ill-formed term -/

theorem test_payload_245 : (Instr.memWrite 0 (List.replicate 245 0)).wellFormed = true := by decide +kernel

theorem test_payload_246 : (Instr.memWrite 0 (List.replicate 246 0)).wellFormed = false := by decide +kernel

theorem test_cfg_sample : Cfg.sample.wf = true := by decide

theorem test_cfg_sram_empty : ({ Cfg.sample with sramBase := 0x20005000 } : Cfg).windowsOk = false := by decide

theorem test_cfg_flash_empty : ({ Cfg.sample with flashEnd := 0x07FFFFFF } : Cfg).windowsOk = false := by decide

theorem test_cfg_no_pages : ({ Cfg.sample with maxPages := 0 } : Cfg).pagesOk = false := by decide

theorem test_cfg_sentinel_page : ({ Cfg.sample with maxPages := 256 } : Cfg).pagesOk = false := by decide

theorem test_cfg_addr_codes : ({ Cfg.sample with stAddrValid := 0 } : Cfg).codesOk = false := by decide

theorem test_cfg_write_codes : ({ Cfg.sample with stWriteFail := 1 } : Cfg).codesOk = false := by decide

theorem test_cfg_erase_codes :
    ({ Cfg.sample with stEraseInvalid := 2 } : Cfg).codesOk = false ∧
      ({ Cfg.sample with stEraseInvalid := 3 } : Cfg).codesOk = false ∧
      ({ Cfg.sample with stEraseFail := 3 } : Cfg).codesOk = false := by decide

theorem test_cfg_short_buffer : ({ Cfg.sample with bufCap := 6 } : Cfg).capOk = false := by decide

theorem test_cfg_refused :
    refused? (step { State.reset with cfg := { Cfg.sample with bufCap := 6 } }) = some .badConfig := by decide

/-! ### Decoding: every constructor's word, from R77, R78 and the vectors -/

theorem test_decode_identity :
    decode fVersion = .ok .getVersion ∧ decode fHelp = .ok .getHelp ∧ decode fChip = .ok .getChipId := by decide

theorem test_decode_goto :
    decode fGoto = .ok (.goToAddr 0x08008000) ∧ decode fGotoBad = .ok (.goToAddr 0x1FFFFFFF) := by decide

theorem test_decode_erase : decode fErase = .ok (.flashErase 0x10 0x04) := by decide

theorem test_decode_write : decode fWrite = .ok (.memWrite 0x08008000 [0xDE, 0xAD, 0xBE, 0xEF]) := by decide

theorem test_decode_protection :
    decode fRdp = .ok .getRdpStatus ∧ decode fProtect = .ok .enRWProtect ∧ decode fMemRead = .ok .memRead ∧
      decode fSector = .ok .readSectorStatus ∧ decode fOtp = .ok .otpRead ∧ decode fRop = .ok .changeRopLevel := by decide

/-- A11, E19, W11: a frame shorter than its natural length takes its operands from the trailer (R80). -/
theorem test_decode_short_frames :
    decode [0x05, 0x14, 0xFB, 0xF2, 0xE8, 0x5F] = .ok (.goToAddr 0x5FE8F2FB) ∧
      decode [0x05, 0x15, 0x4C, 0xEF, 0x29, 0x5B] = .ok (.flashErase 0x4C 0xEF) ∧
      decode [0x0A, 0x16, 0x00, 0x10, 0x00, 0x08, 0x02, 0x69, 0x8A, 0x0A, 0x85] = .ok (.memWrite 0x08001000 [0x69, 0x8A]) :=
  by decide

/-- D9: the bounds of the unknown ranges (R84). -/
theorem test_decode_unknown :
    decode [0x05, 0x00] = .error (.unknownCode 0x00) ∧ decode [0x05, 0x0F] = .error (.unknownCode 0x0F) ∧
      decode [0x05, 0x1A] = .error (.unknownCode 0x1A) ∧ decode [0x05, 0x1F] = .error (.unknownCode 0x1F) ∧
      decode [0x05, 0x22] = .error (.unknownCode 0x22) ∧ decode [0x05, 0xFF] = .error (.unknownCode 0xFF) := by decide

/-- The encoder writes the vectors' frames, trailers included (R86). -/
theorem test_encode :
    encode Cfg.sample .getVersion = fVersion ∧ encode Cfg.sample (.goToAddr 0x08008000) = fGoto ∧
      encode Cfg.sample (.flashErase 0x10 0x04) = fErase ∧
      encode Cfg.sample (.memWrite 0x08008000 [0xDE, 0xAD, 0xBE, 0xEF]) = fWrite := by decide +kernel

/-- The table's rows (spec/opcode_table.json): 8 bits, the code. -/
theorem test_table_words :
    [0x10, 0x11, 0x12, 0x13, 0x14, 0x15, 0x16, 0x17, 0x18, 0x19, 0x20, 0x21, 0x1A].map (decodeTableWord 8) =
      [some .getVersion, some .getHelp, some .getChipId, some .getRdpStatus, some (.goToAddr 0),
        some (.flashErase 0 0), some (.memWrite 0 []), some .enRWProtect, some .memRead, some .readSectorStatus,
        some .otpRead, some .changeRopLevel, none] := by decide

/-- A table word placed for fetching is what the very next step runs: GetVersion's reply, and GoToAddr's to address 0 (R205). -/
theorem test_fetch_word :
    reply (State.reset.withFetchWord 8 0x10) = [0xAB, 0x04, 0x01, 0x01, 0x00, 0x00] ∧
      reply (State.reset.withFetchWord 8 0x14) = [0xAB, 0x01, 0x00] := by decide +kernel

/-! ### The CRC and the gate -/

/-- F16, F17. -/
theorem test_crc :
    crcOf .stm32 0xFFFFFFFF [] = 0xFFFFFFFF ∧ crcOf .stm32 0xFFFFFFFF [0x04] = 0xD400ABA7 ∧
      stm32CrcStep 0xFFFFFFFF 0x12345678 = 0xDF8A8A2B ∧ stm32CrcStep 0xFFFFFFFF 0 = 0xC704DD7B := by decide +kernel

/-- F1, event by event. -/
theorem test_gate_events :
    events (loaded fVersion) =
      [.crcStep 0x05 0xD0C1B610, .crcStep 0x10 0x4CEC8427, .crcReset, .tx 0xAB, .tx 0x04, .tx 0x01, .tx 0x01, .tx 0x00,
        .tx 0x00] := by decide +kernel

/-- F2, F3: a bit of the trailer flipped. -/
theorem test_gate_mismatch :
    reply (loaded fVersionBad) = [0xCD] ∧ reply (loaded [0x05, 0x10, 0x27, 0x84, 0xEC, 0xCC]) = [0xCD] := by decide +kernel

/-- F6, F7, F8: N below 5, and no request to the accumulator. -/
theorem test_gate_short :
    events (loaded [0x04, 0x10]) = [.tx 0xCD] ∧ events (loaded [0x01, 0x10]) = [.tx 0xCD] ∧
      events (loaded [0x03, 0x15]) = [.tx 0xCD] := by decide +kernel

/-- F11: a longer frame. -/
theorem test_gate_longer :
    reply (loaded [0x06, 0x10, 0x00, 0x17, 0x9C, 0xCF, 0xAF]) = [0xAB, 0x04, 0x01, 0x01, 0x00, 0x00] := by decide +kernel

/-! ### The fetch cycle -/

/-- F15, Z1: the cycle start clears the buffer and issues no event. -/
theorem test_cycle_start :
    next? (step { loaded fVersion with fsm := .idle }) = some { State.reset with fsm := .rxLen } := by decide +kernel

/-- The engine waits for the host: nothing changes. -/
theorem test_wait :
    next? (step { State.reset with fsm := .rxLen }) = some { State.reset with fsm := .rxLen } := by decide +kernel

/-- F4: the length byte does not come. -/
theorem test_length_fails :
    events ({ State.reset with fsm := .rxLen }.hostSilent) = [.rxReq 1 .fail, .tx 0xCD] := by decide

/-- F5: nine bytes announced, three sent. -/
theorem test_body_fails :
    events ({ State.reset with fsm := .rxBody, buf := [(0, 0x09)] }.hostSends [0x14, 0x00, 0x80]).hostSilent =
      [.rxReq 9 .fail, .tx 0xCD] := by decide +kernel

/-- R303: without a timeout the next frame's bytes fill the body. -/
theorem test_no_timeout :
    receive false 2 [.byte 0x10, .silence, .byte 0x27, .byte 0x05] = .bytes [0x10, 0x27] [.byte 0x05] := by decide

/-- The body goes to BUF[1 .. N], and dispatch follows. -/
theorem test_body :
    (next? (step ({ State.reset with fsm := .rxBody, buf := [(0, 0x05)] }.hostSends fVersion.tail))).map State.buf =
      some (Memory.ofBytes fVersion) := by decide +kernel

/-- F9, F10: N = 0. -/
theorem test_empty_body :
    goes { State.reset with fsm := .rxBody, oracle := { answers with rxZero := [true] } } = some .dispatch ∧
      events { State.reset with fsm := .rxBody, oracle := { answers with rxZero := [false] } } =
        [.rxReq 0 .fail, .tx 0xCD] := by decide

/-- F12: a frame that does not fit; Z3: and no step after it. -/
theorem test_overflow :
    events { State.reset with cfg := { Cfg.sample with bufCap := 16 }, fsm := .rxBody, buf := [(0, 0x10)] } =
        [.fault .rxOverflow] ∧
      fault? (step (State.reset.raise .rxOverflow)) = some .rxOverflow := by decide

/-- F13: the largest frame that fits is received (here the engine waits for its bytes). -/
theorem test_no_overflow :
    goes { State.reset with cfg := { Cfg.sample with bufCap := 16 }, fsm := .rxBody, buf := [(0, 0x0F)] } = some .rxBody :=
  by decide

/-! ### Dispatch and the identity commands -/

/-- D7, D10, F14. -/
theorem test_unknown_silent :
    events (loaded fUnknown) = [] ∧ events (loaded [0x05, 0x22, 0, 0, 0, 0]) = [] ∧ events (loaded fVersionCmd) = [] ∧
      goes (loaded fUnknown) = some .idle := by decide +kernel

/-- D8. -/
theorem test_unknown_nack :
    events { loaded fUnknown with cfg := { Cfg.sample with unknownPolicy := .nack } } = [.tx 0xCD] := by decide +kernel

/-- D1. -/
theorem test_getVersion : reply (loaded fVersion) = [0xAB, 0x04, 0x01, 0x01, 0x00, 0x00] := by decide +kernel

/-- D2. -/
theorem test_getHelp :
    reply (loaded fHelp) = [0xAB, 0x0C, 0x10, 0x11, 0x12, 0x13, 0x14, 0x15, 0x16, 0x17, 0x18, 0x19, 0x20, 0x21] := by
  decide +kernel

/-- D3. -/
theorem test_getChipId : work (framed fChip) = [.idRead 0x20036410, .tx 0x10, .tx 0x04] := by decide +kernel

/-- D4: only the low 12 bits. -/
theorem test_getChipId_mask :
    reply { loaded fChip with oracle := { answers with ident := [0xFFFFFFFF] } } = [0xFF, 0x0F] := by decide +kernel

/-! ### GoToAddr -/

/-- A1. -/
theorem test_goToAddr :
    work (loaded fGoto) = [.tx 0xAB, .tx 0x01, .tx 0x01, .handoff 0x08008001] ∧ goes (loaded fGoto) = some .handoff := by
  decide +kernel

/-- A13, in the configuration of W15: the target wraps. -/
theorem test_goToAddr_wrap :
    (next? (execGoToAddr 0xFFFFFFFF
      { loaded [0x09, 0x14, 0xFF, 0xFF, 0xFF, 0xFF, 0x7E, 0xB8, 0xF6, 0x18] with
        cfg := { Cfg.sample with flashBase := 0xFFFFFF00, flashEnd := 0xFFFFFFFF } })).map (·.trace.getLast?) =
      some (some (.handoff 0)) := by decide +kernel

/-- A9: an invalid address. -/
theorem test_goToAddr_invalid :
    reply (loaded fGotoBad) = [0xAB, 0x01, 0x00] ∧ goes (loaded fGotoBad) = some .idle := by decide +kernel

/-- X3. -/
theorem test_validate :
    [0x07FFFFFF, 0x08000000, 0x0800FFFF, 0x08010000, 0x1FFFFFFF, 0x20000000, 0x20004FFF, 0x20005000].map
        (validate Cfg.sample) = [false, true, true, false, false, true, true, false] := by decide

/-! ### The flash sequencer -/

/-- E1: the order of the requests. -/
theorem test_flashErase :
    work (framed fErase) =
      [.tx 0xAB, .tx 0x01, .flUnlock .ok, .flErase (.pages 0x10 4) .ok 0xFFFFFFFF, .flLock .ok, .tx 0x03] := by
  decide +kernel

/-- X4: the count check comes before the sentinel test; the example of R167: the error value decides. -/
theorem test_flashErase_status :
    work (framed fMassBad) = [.tx 0xAB, .tx 0x01, .tx 0x00] ∧
      work { loaded fMass with oracle := { answers with unlock := [.err], erase := [(.ok, 5)] } } =
        [.tx 0xAB, .tx 0x01, .flUnlock .err, .flErase .mass .ok 5, .flLock .ok, .tx 0x02] := by decide +kernel

/-- X5 and E14: the clamp, and a count of 0. -/
theorem test_erase_clamp :
    eraseCfg? Cfg.sample 0x3E 0x05 = some (.pages 0x3E 2) ∧ eraseCfg? Cfg.sample 0x3F 0x00 = some (.pages 0x3F 0) ∧
      eraseCfg? Cfg.sample 0x40 0x01 = none ∧ eraseCfg? Cfg.sample 0x00 0x41 = none ∧
      eraseCfg? Cfg.sample 0xFF 0x40 = some .mass := by decide

/-- W1. -/
theorem test_memWrite :
    work (framed fWrite) =
      [.tx 0xAB, .tx 0x01, .flUnlock .ok, .flProg 0x08008000 0xDE .ok, .flProg 0x08008001 0xAD .ok,
        .flProg 0x08008002 0xBE .ok, .flProg 0x08008003 0xEF .ok, .flLock .ok, .tx 0x01] := by decide +kernel

/-- W2: the second byte fails. -/
theorem test_memWrite_fails :
    work { loaded fWrite with oracle := { answers with prog := [.ok, .err] } } =
      [.tx 0xAB, .tx 0x01, .flUnlock .ok, .flProg 0x08008000 0xDE .ok, .flProg 0x08008001 0xAD .err, .flLock .ok,
        .tx 0x00] := by decide +kernel

/-- W15: the address wraps at 2^32. -/
theorem test_program_wrap :
    progEvents 0xFFFFFFFF [0x11, 0x22] = [.flProg 0xFFFFFFFF 0x11 .ok, .flProg 0 0x22 .ok] := by decide

/-- W13: the payload reaches past the buffer. -/
theorem test_memWrite_past :
    work (framed fWriteLong) = [.tx 0xAB, .tx 0x01, .fault .bufOob] ∧ goes (framed fWriteLong) = some .fault := by
  decide +kernel

/-! ### The protection and stub commands -/

/-- P1, P2. -/
theorem test_enRWProtect :
    work (framed fProtect) = [.tx 0xAB, .tx 0x01, .optRead 0xA5, .tx 0xA5] ∧
      reply { loaded fProtect with oracle := { answers with opt := [0xCD] } } = [0xAB, 0x01, 0xCD] := by decide +kernel

/-- P4, P5: two bytes and no more. -/
theorem test_changeRopLevel :
    reply (loaded fRop) = [0xAB, 0x01] ∧ reply (loaded [0x06, 0x21, 0x01, 0x8E, 0xE9, 0xB4, 0x62]) = [0xAB, 0x01] := by
  decide +kernel

/-- P6 to P9, with four different stub bytes (R236). -/
theorem test_stubs :
    [fRdp, fMemRead, fSector, fOtp].map (fun f =>
        reply { loaded f with
          cfg := { Cfg.sample with
            stubGetRdpStatus := 1, stubMemRead := 2, stubReadSectorStatus := 3, stubOtpRead := 4 } }) =
      [[0xAB, 0x01, 1], [0xAB, 0x01, 2], [0xAB, 0x01, 3], [0xAB, 0x01, 4]] := by decide +kernel

/-! ### Reset, ticks -/

/-- Z2: a reset between two FlProg events: nothing is sent, no FlLock, and the scope is closed. -/
theorem test_reset_in_command :
    let s := { loaded fWrite with fsm := .exec 0x16 [.progByte 0x08008001 0xAD [0xBE, 0xEF]], flOpen := true }
    s.resetFrom.trace = s.trace ∧ s.resetFrom.flOpen = false ∧ s.resetFrom.fsm = .idle := by decide +kernel

/-- R180, R296: inside the scope a tick issues the next flash request, and the lock closes the scope. -/
theorem test_tick_scope :
    (next? (tick { framed fErase with fsm := .exec 0x15 [.eraseLock 0xFFFFFFFF], flOpen := true })).map
        (fun t => (t.trace, t.flOpen, t.fsm)) = some ([.flLock .ok], false, .exec 0x15 [.tx 0x03]) := by decide +kernel

/-- Z3: after the handoff there is no step. -/
theorem test_after_handoff : refused? (step (State.reset.handOff 0x08008001)) = some .ended := by decide

/-! ### Witnesses: for each statement with hypotheses, states and operands that meet them all -/

theorem inv_reset : State.reset.Inv where
  cfg := by decide
  canonical := rfl
  within := rfl
  buffer := trivial
  crc := fun _ => rfl
  scope := rfl
  position := by
    intro code todo h
    cases h
  fault := by decide

/-- A state between reset and a handler has the invariant if its buffer and its flags are as they should be there. -/
theorem inv_quiet {s : State} (hcfg : s.cfg.wf = true) (hwf : s.buf.wf = true) (hin : s.buf.within s.cfg.bufCap = true)
    (hbuf : s.bufferOk) (hcrc : s.crcAcc = s.cfg.crcInit) (hopen : s.flOpen = false) (hfault : s.fault = none)
    (hfsm : s.fsm = .idle ∨ s.fsm = .rxLen ∨ s.fsm = .rxBody ∨ s.fsm = .dispatch) : s.Inv where
  cfg := hcfg
  canonical := hwf
  within := hin
  buffer := hbuf
  crc := fun _ => hcrc
  scope := by rcases hfsm with h | h | h | h <;> simp [h, hopen, Fsm.scopeOpen]
  position := by
    intro code todo h'
    rcases hfsm with h | h | h | h <;> simp [h] at h'
  fault := by rcases hfsm with h | h | h | h <;> simp [h, hfault]

/-- The capacity of F12 and F13. -/
def smallCfg : Cfg := { Cfg.sample with bufCap := 16 }

/-- StepRunsDecodedInstruction, UnknownCodeSilent: a known and an unknown code. -/
theorem witness_dispatch :
    (loaded fVersion).cfg.wf = true ∧ (loaded fVersion).fault = none ∧ (loaded fVersion).fsm = .dispatch ∧
      decodeFrom (loaded fVersion).buf.read = .ok .getVersion ∧
      (loaded fUnknown).cfg.wf = true ∧ (loaded fUnknown).fault = none ∧ (loaded fUnknown).fsm = .dispatch ∧
      (loaded fUnknown).cfg.unknownPolicy = .silent ∧ (loaded fUnknown).buf.read 1 ∉ helpTable := by decide

/-- UnknownCodeNacked, at the bounds of the unknown ranges. -/
theorem witness_unknown_nack :
    ∀ c ∈ [(0x00 : Byte), 0x0F, 0x1A, 0x1F, 0x22, 0xFF],
      let s := { loaded [0x05, c] with cfg := { Cfg.sample with unknownPolicy := .nack } }
      s.cfg.wf = true ∧ s.fault = none ∧ s.fsm = .dispatch ∧ s.cfg.unknownPolicy = .nack ∧ s.buf.read 1 ∉ helpTable := by
  decide

/-- TwelveCommandCodes: the nine codes without operands, the three with, and an unknown code. -/
theorem witness_codes :
    (∀ c ∈ [(0x10 : Byte), 0x11, 0x12, 0x13, 0x14, 0x15, 0x16, 0x17, 0x18, 0x19, 0x20, 0x21], frameByte [0, c] 1 = c) ∧
      frameByte [0, 0x22] 1 ∉ [(0x10 : Byte), 0x11, 0x12, 0x13, 0x14, 0x15, 0x16, 0x17, 0x18, 0x19, 0x20, 0x21] := by decide

/-- OperandsAtFixedOffsets: the last bit of an address, and the last byte of the longest payload. -/
theorem witness_operands :
    frameByte fGoto 1 = 0x14 ∧ frameByte fErase 1 = 0x15 ∧ frameByte fWrite 1 = 0x16 ∧ 3 < 4 ∧ 7 < 8 ∧
      254 < (frameByte [0x0A, 0x16, 0, 0, 0, 0, 0xFF] 6).toNat := by decide

/-- DecodeEncodeRoundTrip, NaturalFrameLengths: the longest payload. -/
theorem witness_longest : (Instr.memWrite 0xFFFFFFFF (List.replicate 245 0xFF)).wellFormed = true := by decide +kernel

/-- EncodedFramePassesGate. -/
theorem witness_encoded :
    let s := loaded (encode Cfg.sample (.goToAddr 0x08008000))
    (Instr.goToAddr 0x08008000).wellFormed = true ∧ s.crcAcc = s.cfg.crcInit ∧
      ∀ k, s.buf.read k = (encode s.cfg (.goToAddr 0x08008000)).getD k 0 :=
  ⟨rfl, rfl, fun k => Memory.read_ofBytes _ k⟩

/-- SingleBitCorruptionFailsGate: the lowest bit of the last byte, as in F2. -/
theorem witness_bit_of_trailer :
    let s := loaded fVersion
    let s' := loaded fVersionBad
    s.cfg.crcAlg = .stm32 ∧ s'.cfg = s.cfg ∧ s'.crcAcc = s.crcAcc ∧ s.gatePasses = true ∧ 1 ≤ 5 ∧ 5 ≤ s.frameLen ∧ 0 < 8 ∧
      ∀ j, s'.buf.read j = if j = 5 then s.buf.read 5 ^^^ BitVec.twoPow 8 0 else s.buf.read j := by
  refine ⟨rfl, rfl, rfl, by decide +kernel, by decide, by decide, by decide, fun j => ?_⟩
  match j with
  | 0 | 1 | 2 | 3 | 4 | 5 => decide
  | n + 6 => rfl

/-- SingleBitCorruptionFailsGate: a bit of the command, as in F14. -/
theorem witness_bit_of_command :
    let s := loaded fVersion
    let s' := loaded fVersionCmd
    s.cfg.crcAlg = .stm32 ∧ s'.cfg = s.cfg ∧ s'.crcAcc = s.crcAcc ∧ s.gatePasses = true ∧ 1 ≤ 1 ∧ 1 ≤ s.frameLen ∧ 5 < 8 ∧
      ∀ j, s'.buf.read j = if j = 1 then s.buf.read 1 ^^^ BitVec.twoPow 8 5 else s.buf.read j := by
  refine ⟨rfl, rfl, rfl, by decide +kernel, by decide, by decide, by decide, fun j => ?_⟩
  match j with
  | 0 | 1 | 2 | 3 | 4 | 5 => decide
  | n + 6 => rfl

/-- CycleStartClearsBuffer, ConfigurationChecked (a configuration that is accepted), InvariantAtReset, ResetBufferNeverObserved. -/
theorem witness_cycle_start :
    State.reset.cfg.wf = true ∧ State.reset.fault = none ∧ State.reset.fsm = .idle := by decide

/-- ConfigurationChecked: a configuration that is refused. -/
theorem witness_bad_cfg : ¬ 7 ≤ ({ Cfg.sample with bufCap := 6 } : Cfg).bufCap := by decide

/-- LengthReceiveFails and BodyReceiveFails, their clauses for a receive without a timeout: silences before and among the
bytes, and as many bytes as asked for or one too few. -/
theorem witness_no_timeout :
    let c : Cfg := { Cfg.sample with rxLenMayFail := false, rxBodyMayFail := false }
    let s := { State.reset with cfg := c, fsm := .rxLen, rx := [.silence, .byte 0x05] }
    let u := { State.reset with cfg := c, fsm := .rxBody, buf := [(0, 0x02)], rx := [.silence, .byte 0x10, .silence, .byte 0x27] }
    let few : List RxItem := [.silence, .byte 0x10, .silence]
    (s.cfg.wf = true ∧ s.fault = none ∧ s.fsm = .rxLen ∧ s.cfg.rxLenMayFail = false ∧ s.buf.wf = true ∧
      bytesOf [.silence] = [] ∧ s.rx = [.silence] ++ .byte 0x05 :: []) ∧
    (u.cfg.wf = true ∧ u.fault = none ∧ u.fsm = .rxBody ∧ u.buf.wf = true ∧ u.frameFits ∧ u.frameLen ≠ 0 ∧
      u.cfg.rxBodyMayFail = false ∧ (bytesOf few).length + 1 = u.frameLen ∧ u.rx = few ++ .byte 0x27 :: []) ∧
    (bytesOf few).length < u.frameLen :=
  ⟨by decide, ⟨by decide, by decide, by decide, by decide, fits (by decide), by decide, by decide, by decide, by decide⟩,
    by decide⟩

/-- R31, R303: without a timeout a silence does not fail the length receive, and the byte after it is the length. -/
theorem test_length_no_timeout :
    events { State.reset with cfg := { Cfg.sample with rxLenMayFail := false }, fsm := .rxLen,
                              rx := [.silence, .byte 0x05] } = [.rxReq 1 (.ok [0x05])] := by decide

/-- InvariantAtReset, its clause on launches: the host has sent a frame and the beginning of the next. -/
theorem witness_launch :
    let s := { State.reset with rx := RxItem.byte 0x05 :: (fVersion.tail ++ [0x05]).map RxItem.byte }
    s.Launched ⟨true, fVersion⟩ ∧ s.fsm = .idle ∧ s.flOpen = false ∧ s.fault = none ∧ s.buf.wf = true ∧
      s.buf.within s.cfg.bufCap = true :=
  ⟨⟨rfl, rfl, ⟨by decide, .inr (by decide)⟩, by decide⟩, rfl, rfl, rfl, by decide, by decide⟩

/-- R292: each premise is refused where it does not hold: another accumulator, an open controller, a stream out of step, a
configuration against R8. -/
theorem test_launch_refused :
    (¬ { State.reset with crcAcc := 0 }.Launched ⟨true, fVersion⟩) ∧ (¬ State.reset.Launched ⟨false, fVersion⟩) ∧
      (¬ { State.reset with rx := [.byte 0x4C] }.Launched ⟨true, fVersion⟩) ∧
      ¬ { State.reset with cfg := { Cfg.sample with bufCap := 6 } }.Launched ⟨true, fVersion⟩ := by
  refine ⟨fun h => absurd h.crc (by decide), fun h => absurd h.locked (by decide), fun h => ?_,
    fun h => absurd h.cfg (by decide)⟩
  rcases h.aligned.2 with h | h <;> revert h <;> decide

/-- LengthByteStored, LengthReceiveFails. -/
theorem witness_length :
    let s := { State.reset with fsm := .rxLen, rx := [.byte 0xFF] }
    let u := { State.reset with fsm := .rxLen, rx := [.silence] }
    s.cfg.wf = true ∧ s.fault = none ∧ s.fsm = .rxLen ∧ s.buf.wf = true ∧ s.rx = .byte 0xFF :: [] ∧
      u.cfg.wf = true ∧ u.fault = none ∧ u.fsm = .rxLen ∧ u.cfg.rxLenMayFail = true ∧ u.rx = .silence :: [] := by decide

/-- OverlongFrameFaults: the shortest frame that does not fit. -/
theorem witness_overlong :
    let s := { State.reset with cfg := smallCfg, fsm := .rxBody, buf := [(0, 0x10)] }
    s.cfg.wf = true ∧ s.fault = none ∧ s.fsm = .rxBody ∧ s.cfg.bufCap < s.frameLen + 1 := by decide

/-- BodyStored, first clause: the longest frame that fits. -/
theorem witness_body :
    let bs : List Byte := List.replicate 15 1
    let s := { State.reset with cfg := smallCfg, fsm := .rxBody, buf := [(0, 0x0F)], rx := bs.map RxItem.byte ++ [] }
    s.cfg.wf = true ∧ s.fault = none ∧ s.fsm = .rxBody ∧ s.buf.wf = true ∧ s.frameFits ∧ s.frameLen ≠ 0 ∧
      bs.length = s.frameLen ∧ s.rx = bs.map RxItem.byte ++ [] :=
  ⟨by decide, by decide, by decide, by decide, fits (by decide), by decide, by decide, by decide⟩

/-- BodyStored and BodyReceiveFails, second clauses: N = 0, and either answer. -/
theorem witness_body_empty :
    let s := { State.reset with fsm := .rxBody, oracle := { answers with rxZero := [true] } }
    let u := { State.reset with fsm := .rxBody, oracle := { answers with rxZero := [false] } }
    s.cfg.wf = true ∧ s.fault = none ∧ s.fsm = .rxBody ∧ s.buf.wf = true ∧ s.frameFits ∧ s.frameLen = 0 ∧
      s.rxZeroAnswer = true ∧
      u.cfg.wf = true ∧ u.fault = none ∧ u.fsm = .rxBody ∧ u.buf.wf = true ∧ u.frameFits ∧ u.frameLen = 0 ∧
      u.rxZeroAnswer = false :=
  ⟨by decide, by decide, by decide, by decide, fits (by decide), by decide, by decide,
    by decide, by decide, by decide, by decide, fits (by decide), by decide, by decide⟩

/-- BodyReceiveFails, first clause: one byte too few. -/
theorem witness_body_short :
    let bs : List Byte := [0x10, 0x27, 0x84, 0xEC]
    let s := { State.reset with fsm := .rxBody, buf := [(0, 0x05)], rx := bs.map RxItem.byte ++ RxItem.silence :: [] }
    s.cfg.wf = true ∧ s.fault = none ∧ s.fsm = .rxBody ∧ s.buf.wf = true ∧ s.frameFits ∧ bs.length < s.frameLen ∧
      s.cfg.rxBodyMayFail = true ∧ s.rx = bs.map RxItem.byte ++ RxItem.silence :: [] :=
  ⟨by decide, by decide, by decide, by decide, fits (by decide), by decide, by decide, by decide⟩

/-- ReceiveWaitsForHost: nothing sent, and one byte too few. -/
theorem witness_wait :
    let bs : List Byte := [0x10, 0x27, 0x84, 0xEC]
    let s := { State.reset with fsm := .rxLen }
    let u := { State.reset with fsm := .rxBody, buf := [(0, 0x05)], rx := bs.map RxItem.byte }
    (s.cfg.wf = true ∧ s.fault = none ∧ s.rx = ([] : List Byte).map RxItem.byte ∧ s.fsm = .rxLen) ∧
      u.cfg.wf = true ∧ u.fault = none ∧ u.rx = bs.map RxItem.byte ∧ u.fsm = .rxBody ∧ u.frameFits ∧ bs.length < u.frameLen :=
  ⟨by decide, by decide, by decide, by decide, by decide, fits (by decide), by decide⟩

/-- EveryHandlerGatesFirst and the two clauses of each handler's reply: a gate that passes and a gate that fails, for the frame of
every command without a stored operand. -/
theorem witness_gate :
    (∀ f ∈ [fVersion, fHelp, fChip, fRdp, fProtect, fMemRead, fSector, fOtp, fRop],
      (loaded f).frameFits ∧ (loaded f).gatePasses = true) ∧
      (loaded fVersionBad).frameFits ∧ (loaded fVersionBad).gatePasses = false := by
  unfold State.frameFits
  decide +kernel

/-- ShortFrameNacked, at N = 4; CrcMismatchNacked, at N = 5. -/
theorem witness_short :
    (loaded [0x04, 0x10]).frameFits ∧ (loaded [0x04, 0x10]).frameLen < 5 ∧
      (loaded fVersionBad).frameFits ∧ 5 ≤ (loaded fVersionBad).frameLen ∧
      (List.range ((loaded fVersionBad).frameLen - 3)).foldl
          (fun acc k => crcStep (loaded fVersionBad).cfg.crcAlg acc (((loaded fVersionBad).buf.read k).zeroExtend 32))
          (loaded fVersionBad).crcAcc ≠
        le32At (loaded fVersionBad).buf.read ((loaded fVersionBad).frameLen - 3) := by
  unfold State.frameFits
  decide +kernel

/-- WindowBoundaries, both windows and both sides. -/
theorem witness_windows :
    let c := Cfg.sample
    c.wf = true ∧ c.sramBase ≠ 0 ∧ ¬ (c.flashBase ≤ c.sramBase - 1 ∧ c.sramBase - 1 ≤ c.flashEnd) ∧
      c.sramEnd ≠ 0xFFFFFFFF ∧ ¬ (c.flashBase ≤ c.sramEnd + 1 ∧ c.sramEnd + 1 ≤ c.flashEnd) ∧
      c.flashBase ≠ 0 ∧ ¬ (c.sramBase ≤ c.flashBase - 1 ∧ c.flashBase - 1 ≤ c.sramEnd) ∧
      c.flashEnd ≠ 0xFFFFFFFF ∧ ¬ (c.sramBase ≤ c.flashEnd + 1 ∧ c.flashEnd + 1 ≤ c.sramEnd) := by decide

/-- GoToAddrHandsOff at a bound of a window, GoToAddrInvalid just outside it. -/
theorem witness_goto :
    (loaded fGoto).frameFits ∧ (loaded fGoto).gatePasses = true ∧ validate (loaded fGoto).cfg 0x0800FFFF = true ∧
      validate (loaded fGoto).cfg 0x08010000 = false := by
  unfold State.frameFits
  decide +kernel

/-- TerminalStates. -/
theorem witness_terminal :
    let s := State.reset.handOff 0
    let u := State.reset.raise .bufOob
    s.cfg.wf = true ∧ s.fsm = .handoff ∧ s.fault = none ∧ u.cfg.wf = true ∧ u.fault = some .bufOob := by decide

/-- FlashEraseInvalid (a count one above the limit, with the sentinel; a start at the limit), MassEraseRuns (a count at the limit),
PageEraseRuns (the last page). -/
theorem witness_erase :
    (loaded fErase).frameFits ∧ (loaded fErase).gatePasses = true ∧
      (loaded fErase).cfg.maxPages < (0x41 : Byte).toNat ∧
      ((0x40 : Byte) ≠ 0xFF ∧ (loaded fErase).cfg.maxPages ≤ (0x40 : Byte).toNat) ∧
      (0x40 : Byte).toNat ≤ (loaded fErase).cfg.maxPages ∧
      ((0x3F : Byte) ≠ 0xFF ∧ (0x3F : Byte).toNat < (loaded fErase).cfg.maxPages) := by
  unfold State.frameFits
  decide +kernel

/-- EraseStaysInsideDevice: an erase that is issued. -/
theorem witness_erase_issued :
    exec (.flashErase 0x3E 0x05) (framed fEraseClamp) = .next ((framed fEraseClamp).enter (.flashErase 0x3E 0x05)).finish ∧
      Event.flErase (.pages 0x3E 2) .ok 0xFFFFFFFF ∈
        ((framed fEraseClamp).enter (.flashErase 0x3E 0x05)).finish.trace := by
  refine ⟨exec_eq _ _, ?_⟩
  decide +kernel

/-- MemWriteInvalidAddress; MemWritePayloadPastBuffer (the shortest payload that does not fit); MemWriteRunsProgram (the longest that
does). -/
theorem witness_write :
    (loaded fWrite).frameFits ∧ (loaded fWrite).fault = none ∧ (loaded fWrite).gatePasses = true ∧
      validate (loaded fWrite).cfg 0x30000000 = false ∧ validate (loaded fWrite).cfg 0x0800FFFF = true ∧
      (loaded fWrite).cfg.bufCap ≤ 6 + (List.replicate 250 (0 : Byte)).length ∧
      6 + (List.replicate 249 (0 : Byte)).length < (loaded fWrite).cfg.bufCap := by
  unfold State.frameFits
  decide +kernel

/-- MemWriteUnlockFails, MemWriteProgramsEveryByte, MemWriteByteFails (the first byte, and a later one): the answers. -/
theorem witness_write_answers :
    { loaded fWrite with oracle := { answers with unlock := [.err] } }.unlockAnswer = .err ∧
      (framed fWrite).unlockAnswer = .ok ∧
      (∀ j, j < 4 → (framed fWrite).oracle.prog.getD j (Config.freeProg ((framed fWrite).draws + 1 + j)) = .ok) ∧
      ([.err] : List Status).getD 0 (Config.freeProg 1) = .err ∧
      ([.ok, .err] : List Status).getD 0 (Config.freeProg 1) = .ok ∧
      ([.ok, .err] : List Status).getD 1 (Config.freeProg 2) = .err := by decide

/-- WriteStatusAllOrNothing. -/
theorem witness_write_status :
    (framed fWrite).cfg.wf = true ∧ (framed fWrite).frameFits ∧ (framed fWrite).gatePasses = true ∧
      validate (framed fWrite).cfg 0x08008000 = true ∧
      6 + ([0xDE, 0xAD, 0xBE, 0xEF] : List Byte).length < (framed fWrite).cfg.bufCap := by
  unfold State.frameFits
  decide +kernel

/-- FlashRequestsOnlyAfterGateAndAck: a step that issues a flash request. -/
theorem witness_flash_request :
    (framed fErase).frameFits ∧ (∀ c l, (framed fErase).fsm ≠ .exec c l) ∧
      step (framed fErase) = .next ((framed fErase).enter (.flashErase 0x10 0x04)).finish ∧
      Event.flLock .ok ∈ ((framed fErase).enter (.flashErase 0x10 0x04)).finish.trace ∧ (Event.flLock .ok).isFlash = true := by
  refine ⟨fits (by decide), ?_, rfl, by decide +kernel, rfl⟩
  intro c l h
  cases h

/-- UnlockIsLockedOnce. -/
theorem witness_scope_closed : (framed fErase).frameFits ∧ (framed fErase).flOpen = false :=
  ⟨fits (by decide), rfl⟩

/-- A position inside the flash scope, with the frame in the buffer. -/
def inScope : State :=
  { framed fErase with fsm := .exec 0x15 [.eraseLock 0xFFFFFFFF], flOpen := true }

/-- OnlyFlashRequestsInsideScope, TickKeepsInvariant, StepKeepsInvariant, StepIsFinitelyManyTicks, and the second clause of
HandlersSeeOnlyReceivedBytes: inside a handler. -/
theorem witness_scope_open :
    inScope.Inv ∧ inScope.flOpen = true ∧ tick inScope = .next inScope.advance ∧ step inScope = .next inScope.finish := by
  refine ⟨?_, rfl, rfl, rfl⟩
  exact {
    cfg := by decide
    canonical := by decide
    within := by decide
    buffer := ⟨fits (by decide), by decide, by decide⟩
    crc := fun _ => rfl
    scope := rfl
    position := by
      intro code todo h
      cases h
      decide
    fault := by decide }

/-- A position inside the flash scope of a MemWrite. -/
def inProgram : State :=
  { framed fWrite with fsm := .exec 0x16 [.progByte 0x08008000 0xDE [0xAD]], flOpen := true }

/-- OnlyFlashRequestsInsideScope, in the handler of 0x16. -/
theorem witness_program_open : inProgram.Inv ∧ inProgram.flOpen = true := by
  refine ⟨?_, rfl⟩
  exact {
    cfg := by decide
    canonical := by decide
    within := by decide
    buffer := ⟨fits (by decide), by decide, by decide⟩
    crc := fun _ => rfl
    scope := rfl
    position := by
      intro code todo h
      cases h
      decide
    fault := by decide }

/-- ControlTransitions, S_EXEC(c) to S_FAULT (R264): the shortest payload that reaches past BUF[15], and the longest that does
not. -/
theorem witness_exec_fault :
    let long := Act.write 0x08008000 (List.replicate 10 0)
    let s := { loaded fWrite with cfg := smallCfg, fsm := .exec 0x16 [long] }
    tick s = .next s.advance ∧ s.advance.fsm = .fault ∧ long.lastRead s = some 16 ∧
      (Act.write 0x08008000 (List.replicate 9 0)).lastRead s = some 15 ∧ s.cfg.bufCap = 16 :=
  ⟨rfl, by decide, by decide, by decide, rfl⟩

/-- ControlTransitions, S_EXEC(0x14) to S_HANDOFF: a position with the invariant whose next action is the handoff of the last
address of the flash window; with the target of the address after it the position is not one the handler has. -/
theorem witness_exec_handoff :
    let s := { loaded fGoto with fsm := .exec 0x14 [.handoff 0x08010000] }
    s.Inv ∧ tick s = .next s.advance ∧ s.advance.fsm = .handoff ∧
      positionOk s.cfg 0x14 [.handoff 0x08010001] = false := by
  refine ⟨?_, rfl, rfl, by decide⟩
  exact {
    cfg := by decide
    canonical := by decide
    within := by decide
    buffer := ⟨fits (by decide), by decide, by decide⟩
    crc := fun _ => rfl
    scope := rfl
    position := by
      intro code todo h
      cases h
      decide
    fault := by decide }

/-- HandlerFrames: an instruction of each of its groups has a next state from a state that meets the hypothesis. -/
theorem witness_frames :
    ∀ i ∈ [Instr.getVersion, .goToAddr 0, .getChipId, .enRWProtect, .flashErase 0 0, .memWrite 0 []],
      (loaded fVersion).frameFits ∧ exec i (loaded fVersion) = .next ((loaded fVersion).enter i).finish :=
  fun i _ => ⟨fits (by decide), exec_eq i _⟩

/-- StepKeepsInvariant, TickKeepsInvariant, StepIsFinitelyManyTicks, ConfigurationFixedAndTraceGrows, ControlTransitions,
FaultRecordedOnce: a dispatch, and a state from which the next step waits. -/
theorem witness_step :
    (loaded fVersion).Inv ∧ step (loaded fVersion) = .next ((loaded fVersion).enter .getVersion).finish ∧
      tick (loaded fVersion) = .next ((loaded fVersion).enter .getVersion) ∧
      { State.reset with fsm := .rxLen }.Inv ∧
      step { State.reset with fsm := .rxLen } = .next { State.reset with fsm := .rxLen } := by
  refine ⟨?_, rfl, rfl, ?_, rfl⟩
  · exact inv_quiet (by decide) (by decide) (by decide) ⟨fits (by decide), by decide⟩ rfl rfl rfl (.inr (.inr (.inr rfl)))
  · exact inv_quiet (by decide) rfl rfl rfl rfl rfl rfl (.inr (.inl rfl))

/-- FaultRecordedOnce, third clause. -/
theorem witness_fault : (State.reset.raise .rxOverflow).Inv ∧ (State.reset.raise .rxOverflow).fault ≠ none := by
  refine ⟨?_, by decide⟩
  exact {
    cfg := by decide
    canonical := rfl
    within := rfl
    buffer := trivial
    crc := fun _ => rfl
    scope := rfl
    position := by
      intro code todo h
      cases h
    fault := by decide }

/-- HandlersSeeOnlyReceivedBytes: a frame, and the empty one. -/
theorem witness_received :
    let s := { State.reset with rx := RxItem.byte 0x05 :: fVersion.tail.map RxItem.byte ++ [] }
    let u := { State.reset with rx := RxItem.byte 0x00 :: ([] : List Byte).map RxItem.byte ++ [],
                                oracle := { answers with rxZero := [true] } }
    s.Inv ∧ s.fsm = .idle ∧ (0x05 : Byte).toNat = fVersion.tail.length ∧ fVersion.tail ≠ [] ∧
      fVersion.tail.length < s.cfg.bufCap ∧
      u.Inv ∧ u.fsm = .idle ∧ (0x00 : Byte).toNat = ([] : List Byte).length ∧ u.rxZeroAnswer = true ∧ 0 < u.cfg.bufCap := by
  refine ⟨?_, rfl, by decide, by decide, by decide, ?_, rfl, rfl, rfl, by decide⟩
  · exact inv_quiet (by decide) rfl rfl trivial rfl rfl rfl (.inl rfl)
  · exact inv_quiet (by decide) rfl rfl trivial rfl rfl rfl (.inl rfl)

end Sys2Proof.Tests
end

section
/-! PROOF. What a tick and a step can do, said once: the control state a tick leaves and the state it reaches, the three
answers of each receive, and that a step is a tick followed by the rest of the handler. -/

namespace Sys2Proof.Machine

/-- The moves of the engine (R20), one for each way a tick can answer a next state. -/
inductive Moves (s : State) : State → Prop
  | cycleStart (h : s.fsm = .idle) : Moves s s.cycleStart
  | length (h : s.fsm = .rxLen) : Moves s s.receiveLength
  | body (h : s.fsm = .rxBody) : Moves s s.receiveBody
  | enter (h : s.fsm = .dispatch) {i : Instr} (hi : s.instr = .ok i) : Moves s (s.enter i)
  | unknown (h : s.fsm = .dispatch) {e : DecodeError} (he : s.instr = .error e) : Moves s s.unknownCode
  | advance {c : Byte} {l : List Act} (h : s.fsm = .exec c l) : Moves s s.advance

/-- A tick answers a next state only under an allowed configuration and without a recorded fault, and by one of the moves. -/
theorem tick_moves {s t : State} (h : tick s = .next t) : s.cfg.wf = true ∧ s.fault = none ∧ Moves s t := by
  unfold tick at h
  split at h
  · rename_i hwf
    split at h
    · cases h
    · rename_i hfault
      refine ⟨hwf, hfault, ?_⟩
      split at h
      · cases h; exact .cycleStart ‹_›
      · cases h; exact .length ‹_›
      · cases h; exact .body ‹_›
      · split at h
        · cases h; exact .enter ‹_› ‹_›
        · cases h; exact .unknown ‹_› ‹_›
      · cases h; exact .advance ‹_›
      · cases h
      · cases h
  · cases h

/-! ### The receives -/

/-- What the length receive can do (R101 to R103): store a byte, fail, or wait. -/
theorem receiveLength_cases (s : State) :
    (∃ b rest, s.receiveLength =
        { s.emit (.rxReq 1 (.ok [b])) with rx := rest, buf := s.buf.writeList 0 [b], fsm := .rxBody }) ∨
      (∃ rest, s.receiveLength = { s with rx := rest }.receiveFailed 1) ∨ s.receiveLength = s := by
  unfold State.receiveLength
  split
  · rename_i bs rest hr
    obtain ⟨b, rfl⟩ := List.length_eq_one_iff.mp (receive_length hr)
    exact .inl ⟨b, rest, rfl⟩
  · exact .inr (.inl ⟨_, rfl⟩)
  · exact .inr (.inr rfl)

/-- The receive of a byte that has come (R103). -/
theorem receiveLength_byte {s : State} {b : Byte} {rest : List RxItem} (h : s.rx = .byte b :: rest) :
    s.receiveLength =
      { s.emit (.rxReq 1 (.ok [b])) with rx := rest, buf := s.buf.writeList 0 [b], fsm := .rxBody } := by
  have hr : receive s.cfg.rxLenMayFail 1 s.rx = .bytes [b] rest := h ▸ receive_bytes _ [b] rest
  simp only [State.receiveLength, hr]

/-- What the body receive can do (R104 to R107): overflow where the frame does not fit; where it does, store N bytes, fail
with BUF[1 .. N] overwritten by any bytes (R24), or wait. Besides, only the model's own inputs are used up. -/
theorem receiveBody_cases (s : State) :
    (s.cfg.bufCap < s.frameLen + 1 ∧ s.receiveBody = s.raise .rxOverflow) ∨
      (s.frameFits ∧
        ((∃ rx oracle draws bs, bs.length = s.frameLen ∧ s.receiveBody =
            { s with rx := rx, oracle := oracle, draws := draws }.bodyStored s.frameLen bs) ∨
          (∃ rx oracle draws bs, bs.length = s.frameLen ∧ s.receiveBody =
            { s with
              rx := rx, oracle := oracle, draws := draws, buf := s.buf.writeList 1 bs }.receiveFailed s.frameLen) ∨
          s.receiveBody = s)) := by
  unfold State.receiveBody
  split
  · exact .inl ⟨‹_›, rfl⟩
  · rename_i hcap
    refine .inr ⟨by unfold State.frameFits; omega, ?_⟩
    split
    · rename_i h0
      rw [h0, State.receiveNothing]
      dsimp only
      split
      · exact .inl ⟨_, _, _, [], rfl, rfl⟩
      · exact .inr (.inl ⟨_, _, _, [], rfl, rfl⟩)
    · split
      · rename_i bs rest hr
        exact .inl ⟨_, _, _, bs, receive_length hr, rfl⟩
      · exact .inr (.inl ⟨_, _, _, _, freeBytes_length _ _ _, rfl⟩)
      · exact .inr (.inr rfl)

/-- The receive of a body that has come (R105, R107), where the frame fits. -/
theorem receiveBody_bytes {s : State} {bs : List Byte} {rest : List RxItem} (hfit : s.frameFits) (h0 : s.frameLen ≠ 0)
    (hlen : bs.length = s.frameLen) (h : s.rx = bs.map .byte ++ rest) :
    s.receiveBody = { s with rx := rest }.bodyStored s.frameLen bs := by
  have hr : receive s.cfg.rxBodyMayFail s.frameLen s.rx = .bytes bs rest := by rw [h, ← hlen, receive_bytes]
  simp only [State.receiveBody, if_neg (Nat.not_lt.mpr hfit), if_neg h0, hr]

/-- RX(0), answered Ok (R31, D5). -/
theorem receiveBody_nothing {s : State} (hfit : s.frameFits) (h0 : s.frameLen = 0) (hok : s.rxZeroAnswer = true) :
    s.receiveBody =
      { s with oracle := { s.oracle with rxZero := s.oracle.rxZero.tail }, draws := s.draws + 1 }.bodyStored 0 [] := by
  rw [State.receiveBody, if_neg (Nat.not_lt.mpr hfit), if_pos h0, State.receiveNothing, if_pos hok]

/-- A body receive waits while fewer than N bytes have come and no silence (R31, R120). -/
theorem receiveBody_waits {s : State} {bs : List Byte} (hfit : s.frameFits) (hlen : bs.length < s.frameLen)
    (h : s.rx = bs.map .byte) : s.receiveBody = s := by
  have hr : receive s.cfg.rxBodyMayFail s.frameLen s.rx = .waiting := h ▸ receive_waiting _ hlen
  simp only [State.receiveBody, if_neg (Nat.not_lt.mpr hfit), if_neg (Nat.ne_zero_of_lt hlen), hr]

/-- A length receive waits while nothing has come (R31, R120). -/
theorem receiveLength_waits {s : State} (h : s.rx = []) : s.receiveLength = s := by
  have hr : receive s.cfg.rxLenMayFail 1 s.rx = .waiting := h ▸ receive_waiting _ (bs := []) Nat.one_pos
  simp only [State.receiveLength, hr]

/-- A receive is no handler: neither enters S_EXEC. -/
theorem receiveLength_not_exec {s : State} (h : s.fsm = .rxLen) (c : Byte) (l : List Act) :
    s.receiveLength.fsm ≠ .exec c l := by
  obtain ⟨b, rest, e⟩ | ⟨rest, e⟩ | e := receiveLength_cases s
  · rw [e]; exact nofun
  · rw [e]; exact nofun
  · rw [e, h]; exact nofun

theorem receiveBody_not_exec {s : State} (h : s.fsm = .rxBody) (c : Byte) (l : List Act) :
    s.receiveBody.fsm ≠ .exec c l := by
  obtain ⟨-, e⟩ | ⟨-, ⟨_, _, _, bs, -, e⟩ | ⟨_, _, _, bs, -, e⟩ | e⟩ := receiveBody_cases s
  · rw [e]; exact nofun
  · rw [e]; exact nofun
  · rw [e]; exact nofun
  · rw [e, h]; exact nofun

/-! ### Unknown codes, moves inside a handler, and a step -/

@[simp] theorem unknownCode_fsm (s : State) : s.unknownCode.fsm = .idle := by
  unfold State.unknownCode
  split <;> rfl

/-- An unknown code changes fsm and, by the policy, sends one byte (R131, R132). -/
theorem unknownCode_eq (s : State) : ∃ evs, s.unknownCode = { s with fsm := .idle, trace := s.trace ++ evs } := by
  unfold State.unknownCode
  split
  · exact ⟨[], by rw [List.append_nil]; rfl⟩
  · exact ⟨_, rfl⟩

/-- The only action that ends in S_HANDOFF is the handoff (R206). -/
theorem perform_handoff {a : Act} {c : Byte} {rest : List Act} {s : State}
    (h : (a.perform c rest s).fsm = .handoff) : ∃ t, a = .handoff t := by
  cases a with
  | handoff t => exact ⟨t, rfl⟩
  | gate =>
    simp only [Act.perform, State.gateLength] at h
    split at h
    · cases h
    · split at h <;> cases h
  | feed i =>
    simp only [Act.perform, State.gateFeed] at h
    split at h <;> cases h
  | compare acc =>
    simp only [Act.perform, State.gateCompare] at h
    split at h <;> cases h
  | erase ps pc =>
    simp only [Act.perform, State.eraseChecked] at h
    split at h <;> cases h
  | write a p =>
    simp only [Act.perform, State.writeChecked] at h
    split at h
    · split at h <;> cases h
    · cases h
  | progUnlock a p =>
    simp only [Act.perform, State.progUnlocked] at h
    split at h <;> cases h
  | _ => cases h

/-- One move inside a handler. -/
theorem advance_cons {s : State} {c : Byte} {a : Act} {rest : List Act} (hf : s.fsm = .exec c (a :: rest)) :
    s.advance = a.perform c rest s := by
  simp only [State.advance, hf]

theorem advance_nil {s : State} {c : Byte} (hf : s.fsm = .exec c []) : s.advance = s.toIdle := by
  simp only [State.advance, hf]

/-- A step is a tick, and then the rest of the handler where the tick is inside one (R136). -/
theorem step_tick_finish {s t : State} (h : step s = .next t) : ∃ u, tick s = .next u ∧ u.finish = t := by
  by_cases hwf : s.cfg.wf = true
  · cases hfault : s.fault with
    | some r => simp [step, hwf, hfault] at h
    | none =>
      simp only [step, tick, hwf, hfault, if_true] at h ⊢
      cases hf : s.fsm with
      | idle =>
        simp only [hf] at h ⊢
        cases h
        exact ⟨_, rfl, finish_of_not_exec nofun⟩
      | rxLen =>
        simp only [hf] at h ⊢
        cases h
        exact ⟨_, rfl, finish_of_not_exec (receiveLength_not_exec hf)⟩
      | rxBody =>
        simp only [hf] at h ⊢
        cases h
        exact ⟨_, rfl, finish_of_not_exec (receiveBody_not_exec hf)⟩
      | dispatch =>
        cases hi : s.instr with
        | ok i =>
          simp only [hf, hi, exec_eq] at h ⊢
          cases h
          exact ⟨_, rfl, rfl⟩
        | error e =>
          simp only [hf, hi] at h ⊢
          cases h
          exact ⟨_, rfl, finish_of_not_exec (by simp)⟩
      | exec c l =>
        simp only [hf] at h ⊢
        cases h
        exact ⟨_, rfl, (finish_of_exec hf).symm⟩
      | handoff => simp [hf] at h
      | fault => simp [hf] at h
  · simp [step, hwf] at h

end Sys2Proof.Machine
end

section
/-! PROOF. The engine's invariant `State.Inv` is kept: by the moves of the fetch cycle, by entering a handler, by every action
of a handler, and so by every tick and every step. -/

namespace Sys2Proof.Machine

/-! ### The invariant outside a handler and inside one -/

/-- A control state that is neither inside a handler nor the end of a faulted run. -/
def Fsm.outside : Fsm → Bool
  | .exec _ _ => false
  | .fault => false
  | _ => true

/-- Outside a handler the invariant says that the buffer is as it should be and that the flags are as after reset. -/
theorem inv_outside_iff {s : State} (h : s.fsm.outside = true) :
    s.Inv ↔ s.cfg.wf = true ∧ (s.buf.wf = true ∧ s.buf.within s.cfg.bufCap = true ∧ s.bufferOk) ∧
      s.crcAcc = s.cfg.crcInit ∧ s.flOpen = false ∧ s.fault = none := by
  have hbusy : s.fsm.crcBusy = false ∧ s.fsm.scopeOpen = false ∧ s.fsm ≠ .fault ∧ ∀ c l, s.fsm ≠ .exec c l := by
    cases hf : s.fsm <;> simp_all [Fsm.outside, Fsm.crcBusy, Fsm.scopeOpen]
  obtain ⟨hcrc, hscope, hne, hx⟩ := hbusy
  constructor
  · intro hs
    exact ⟨hs.cfg, ⟨hs.canonical, hs.within, hs.buffer⟩, hs.crc hcrc, hs.scope.trans hscope, by
      simpa [hne] using hs.fault⟩
  · rintro ⟨hcfg, ⟨hwf, hin, hbuf⟩, hacc, hopen, hfault⟩
    exact ⟨hcfg, hwf, hin, hbuf, fun _ => hacc, hopen.trans hscope.symm, fun c l h' => absurd h' (hx c l), by
      simp [hfault, hne]⟩

/-- A move from one control state outside a handler to another keeps the invariant if it keeps the configuration, the
accumulator, the scope bit and the fault record, and leaves the buffer as it should be. -/
theorem inv_outside_of {s t : State} (hs : s.Inv) (hsf : s.fsm.outside = true) (htf : t.fsm.outside = true)
    (hcfg : t.cfg = s.cfg) (hcrc : t.crcAcc = s.crcAcc) (hopen : t.flOpen = s.flOpen) (hfault : t.fault = s.fault)
    (hbuf : t.buf.wf = true ∧ t.buf.within s.cfg.bufCap = true ∧ t.bufferOk) : t.Inv := by
  obtain ⟨h1, -, h3, h4, h5⟩ := (inv_outside_iff hsf).mp hs
  rw [← hcfg] at h1 h3 hbuf
  exact (inv_outside_iff htf).mpr ⟨h1, hbuf, hcrc.trans h3, hopen.trans h4, hfault.trans h5⟩

/-- A frame that does not fit, or a read past the buffer: where the scope is closed, a raised fault keeps the invariant. -/
theorem inv_raise {s : State} (hs : s.Inv) (hscope : s.fsm.scopeOpen = false) (r : Fault) : (s.raise r).Inv where
  cfg := hs.cfg
  canonical := hs.canonical
  within := hs.within
  buffer := trivial
  crc := nofun
  scope := hs.scope.trans hscope
  position := nofun
  fault := by simp

/-- Actions that may stand after the first one: the handler's own, and neither inside the flash scope nor inside the gate's
use of the accumulator. -/
def laterOk (cfg : Cfg) (code : Byte) (l : List Act) : Bool :=
  l.all fun a => a.allowedIn cfg code && !a.inScope && !a.inGate

@[simp] theorem laterOk_nil (cfg : Cfg) (code : Byte) : laterOk cfg code [] = true := rfl

@[simp] theorem laterOk_cons (cfg : Cfg) (code : Byte) (a : Act) (l : List Act) :
    laterOk cfg code (a :: l) = true ↔
      (a.allowedIn cfg code = true ∧ a.inScope = false ∧ a.inGate = false) ∧ laterOk cfg code l = true := by
  simp [laterOk, and_assoc]

@[simp] theorem positionOk_cons (cfg : Cfg) (code : Byte) (a : Act) (l : List Act) :
    positionOk cfg code (a :: l) = true ↔ a.allowedIn cfg code = true ∧ laterOk cfg code l = true := by
  simp [positionOk, laterOk, and_assoc, imp_and, forall_and]

/-- Actions that may stand later may come first, with the scope closed. -/
theorem position_of_laterOk {cfg : Cfg} {code : Byte} {l : List Act} (h : laterOk cfg code l = true) :
    positionOk cfg code l = true ∧ headInScope l = false := by
  cases l with
  | nil => exact ⟨rfl, rfl⟩
  | cons a l =>
    obtain ⟨⟨hallow, hscope, -⟩, hl⟩ := (laterOk_cons cfg code a l).mp h
    exact ⟨(positionOk_cons cfg code a l).mpr ⟨hallow, hl⟩, hscope⟩

/-- Inside the handler of code `c`, whatever was done to the other fields, the invariant holds at the position `l` if the
position is one the handler has and the scope bit and the accumulator are as it says. -/
theorem inv_goOn {s u : State} {c : Byte} {todo l : List Act} (hs : s.Inv) (hf : s.fsm = .exec c todo)
    (hframe : u.cfg = s.cfg ∧ u.buf = s.buf ∧ u.fault = s.fault) (hpos : positionOk s.cfg c l = true)
    (hopen : u.flOpen = headInScope l) (hcrc : headInGate l = false → u.crcAcc = s.cfg.crcInit) : (u.goOn c l).Inv := by
  obtain ⟨hcfg, hbuf, hfault⟩ := hframe
  have hbuffer : s.frameFits ∧ s.buf.within (s.frameLen + 1) = true ∧ s.buf.read 1 = c := by
    simpa only [State.bufferOk, hf] using hs.buffer
  exact {
    cfg := hcfg ▸ hs.cfg
    canonical := hbuf ▸ hs.canonical
    within := by simpa [hcfg, hbuf] using hs.within
    buffer := by
      simpa only [State.bufferOk, State.frameFits, State.frameLen, State.goOn_fsm, State.goOn_buf, State.goOn_cfg, hbuf,
        hcfg] using hbuffer
    crc := fun h => hcfg ▸ hcrc h
    scope := hopen
    position := by
      intro c' l' h'
      cases h'
      exact hcfg ▸ hpos
    fault := by simpa [hfault, hf] using hs.fault }

/-! ### The fetch cycle -/

theorem cycleStart_inv {s : State} (hs : s.Inv) (hf : s.fsm = .idle) : s.cycleStart.Inv :=
  inv_outside_of hs (by rw [hf]; rfl) rfl rfl rfl rfl rfl ⟨rfl, rfl, rfl⟩

theorem receiveLength_inv {s : State} (hs : s.Inv) (hf : s.fsm = .rxLen) : s.receiveLength.Inv := by
  have hout : s.fsm.outside = true := by rw [hf]; rfl
  obtain ⟨b, rest, e⟩ | ⟨rest, e⟩ | e := receiveLength_cases s
  · have hnil : s.buf = [] := by simpa only [State.bufferOk, hf] using hs.buffer
    have h1 : (s.buf.writeList 0 [b]).within 1 = true := Memory.writeList_within (hnil ▸ rfl) (Nat.le_refl _)
    have hcap : 7 ≤ s.cfg.bufCap := by
      have := hs.cfg
      simp only [Cfg.wf, Cfg.capOk, Bool.and_eq_true, decide_eq_true_eq] at this
      exact this.2
    rw [e]
    exact inv_outside_of hs hout rfl rfl rfl rfl rfl
      ⟨Memory.writeList_wf hs.canonical 0 [b], Memory.within_mono h1 (by omega), h1⟩
  · rw [e]
    exact inv_outside_of hs hout rfl rfl rfl rfl rfl ⟨hs.canonical, hs.within, trivial⟩
  · rwa [e]

theorem receiveBody_inv {s : State} (hs : s.Inv) (hf : s.fsm = .rxBody) : s.receiveBody.Inv := by
  have hout : s.fsm.outside = true := by rw [hf]; rfl
  have hone : s.buf.within 1 = true := by simpa only [State.bufferOk, hf] using hs.buffer
  have hwf (bs : List Byte) : (s.buf.writeList 1 bs).wf = true := Memory.writeList_wf hs.canonical 1 bs
  have hin {bs : List Byte} (hlen : bs.length = s.frameLen) : (s.buf.writeList 1 bs).within (s.frameLen + 1) = true :=
    Memory.writeList_within (Memory.within_mono hone (by omega)) (by omega)
  have hkeep (bs : List Byte) : (s.buf.writeList 1 bs).read 0 = s.buf.read 0 := by
    rw [Memory.read_writeList hs.canonical, if_neg (by omega)]
  obtain ⟨-, e⟩ | ⟨hfit, ⟨_, _, _, bs, hlen, e⟩ | ⟨_, _, _, bs, hlen, e⟩ | e⟩ := receiveBody_cases s
  · rw [e]
    exact inv_raise hs (by rw [hf]; rfl) _
  · have hframe : (s.buf.writeList 1 bs).read 0 = s.buf.read 0 := hkeep bs
    rw [e]
    refine inv_outside_of hs hout rfl rfl rfl rfl rfl ⟨hwf bs, Memory.within_mono (hin hlen) hfit, ?_⟩
    simpa only [State.bufferOk, State.bodyStored, State.frameFits, State.frameLen, State.emit_cfg, State.emit_buf, hframe]
      using And.intro hfit (hin hlen)
  · rw [e]
    exact inv_outside_of hs hout rfl rfl rfl rfl rfl ⟨hwf bs, Memory.within_mono (hin hlen) hfit, trivial⟩
  · rwa [e]

theorem unknownCode_inv {s : State} (hs : s.Inv) (hf : s.fsm = .dispatch) : s.unknownCode.Inv := by
  obtain ⟨evs, e⟩ := unknownCode_eq s
  rw [e]
  exact inv_outside_of hs (by rw [hf]; rfl) rfl rfl rfl rfl rfl ⟨hs.canonical, hs.within, trivial⟩

/-! ### Inside a handler -/

@[simp] theorem laterOk_append (cfg : Cfg) (code : Byte) (l l' : List Act) :
    laterOk cfg code (l ++ l') = true ↔ laterOk cfg code l = true ∧ laterOk cfg code l' = true := by
  simp [laterOk]

/-- Sends may stand anywhere in a handler. -/
@[simp] theorem laterOk_sends (cfg : Cfg) (code : Byte) (bs : List Byte) : laterOk cfg code (sends bs) = true := by
  induction bs with
  | nil => rfl
  | cons b bs ih => exact (laterOk_cons _ _ _ _).mpr ⟨⟨rfl, rfl, rfl⟩, ih⟩

/-- Every handler begins with the gate, and what follows may stand after it. -/
theorem programOf_gate (cfg : Cfg) (i : Instr) :
    ∃ body, programOf cfg i = .gate :: body ∧ laterOk cfg i.code body = true := by
  cases i with
  | getChipId => exact ⟨[.readId], rfl, rfl⟩
  | goToAddr a => exact ⟨sends [Config.ack, 0x01] ++ [.goTo a], rfl, rfl⟩
  | flashErase ps pc => exact ⟨sends [Config.ack, 0x01] ++ [.erase ps pc], rfl, rfl⟩
  | memWrite a p => exact ⟨sends [Config.ack, 0x01] ++ [.write a p], rfl, rfl⟩
  | enRWProtect => exact ⟨sends [Config.ack, 0x01] ++ [.readOpt], rfl, rfl⟩
  | _ => exact ⟨sends _, rfl, laterOk_sends _ _ _⟩

theorem enter_inv {s : State} (hs : s.Inv) (hf : s.fsm = .dispatch) {i : Instr} (hi : s.instr = .ok i) :
    (s.enter i).Inv := by
  obtain ⟨body, hprog, hbody⟩ := programOf_gate s.cfg i
  obtain ⟨hcfg, ⟨hwf, hin, hbuf⟩, hcrc, hopen, hfault⟩ := (inv_outside_iff (by rw [hf]; rfl)).mp hs
  obtain ⟨hfit, hframe⟩ : s.frameFits ∧ s.buf.within (s.frameLen + 1) = true := by
    simpa only [State.bufferOk, hf] using hbuf
  rw [State.enter, hprog]
  exact {
    cfg := hcfg
    canonical := hwf
    within := hin
    buffer := ⟨hfit, hframe, (decodeFrom_code hi).symm⟩
    crc := fun _ => hcrc
    scope := hopen
    position := by
      intro c l h
      cases h
      exact (positionOk_cons _ _ _ _).mpr ⟨rfl, hbody⟩
    fault := by simp [hfault] }

/-- Every action keeps the invariant: what it puts in front of the actions left is the handler's own, and the first of them
stands inside the flash scope, or inside the gate's use of the accumulator, exactly as the action leaves them. -/
theorem perform_inv {s : State} {c : Byte} {a : Act} {rest : List Act} (hs : s.Inv) (hf : s.fsm = .exec c (a :: rest)) :
    (a.perform c rest s).Inv := by
  obtain ⟨hallow, hrest⟩ := (positionOk_cons _ _ _ _).mp (hs.position _ _ hf)
  obtain ⟨hpos, hscope⟩ := position_of_laterOk hrest
  have hopen : s.flOpen = a.inScope := by rw [hs.scope, hf]; rfl
  have hcrc : a.inGate = false → s.crcAcc = s.cfg.crcInit := fun h => hs.crc (by rw [hf]; exact h)
  have hhead {b : Act} (hb : b.allowedIn s.cfg c = true) : positionOk s.cfg c (b :: rest) = true :=
    (positionOk_cons _ _ _ _).mpr ⟨hb, hrest⟩
  have hraise (h : a.inScope = false) : (s.raise .bufOob).Inv := inv_raise hs (by rw [hf]; exact h) _
  have hnofault : s.fault = none := by simpa [hf] using hs.fault
  cases a with
  | gate =>
    simp only [Act.perform, State.gateLength]
    split
    · exact hraise rfl
    · split
      · exact inv_goOn hs hf ⟨rfl, rfl, rfl⟩ rfl hopen fun _ => hcrc rfl
      · exact inv_goOn hs hf ⟨rfl, rfl, rfl⟩ (hhead rfl) hopen nofun
  | feed i =>
    simp only [Act.perform, State.gateFeed]
    split
    · exact hraise rfl
    · split
      · exact inv_goOn hs hf ⟨rfl, rfl, rfl⟩ (hhead rfl) hopen nofun
      · exact inv_goOn hs hf ⟨rfl, rfl, rfl⟩ (hhead rfl) hopen nofun
  | crcReset => exact inv_goOn hs hf ⟨rfl, rfl, rfl⟩ (hhead rfl) hopen fun _ => rfl
  | compare acc =>
    simp only [Act.perform, State.gateCompare]
    split
    · exact hraise rfl
    · split
      · exact inv_goOn hs hf ⟨rfl, rfl, rfl⟩ hpos (hopen.trans hscope.symm) fun _ => hcrc rfl
      · exact inv_goOn hs hf ⟨rfl, rfl, rfl⟩ rfl hopen fun _ => hcrc rfl
  | tx b => exact inv_goOn hs hf ⟨rfl, rfl, rfl⟩ hpos (hopen.trans hscope.symm) fun _ => hcrc rfl
  | handoff t =>
    exact (inv_outside_iff rfl).mpr ⟨hs.cfg, ⟨hs.canonical, hs.within, trivial⟩, hcrc rfl, hopen, hnofault⟩
  | goTo a =>
    simp only [Act.perform, State.goToChecked]
    split
    · rename_i hv
      have htarget : (Act.handoff (a + 1)).allowedIn s.cfg c = true := by
        rw [Act.allowedIn, BitVec.add_sub_cancel, hv, Bool.and_true]
        exact hallow
      exact inv_goOn hs hf ⟨rfl, rfl, rfl⟩
        ((positionOk_cons _ _ _ _).mpr ⟨rfl, (laterOk_cons _ _ _ _).mpr ⟨⟨htarget, rfl, rfl⟩, hrest⟩⟩) hopen
        fun _ => hcrc rfl
    · exact inv_goOn hs hf ⟨rfl, rfl, rfl⟩ (hhead rfl) hopen fun _ => hcrc rfl
  | readId =>
    exact inv_goOn hs hf ⟨rfl, rfl, rfl⟩
      ((positionOk_cons _ _ _ _).mpr ⟨rfl, (laterOk_cons _ _ _ _).mpr ⟨⟨rfl, rfl, rfl⟩, hrest⟩⟩) hopen fun _ => hcrc rfl
  | readOpt => exact inv_goOn hs hf ⟨rfl, rfl, rfl⟩ (hhead rfl) hopen fun _ => hcrc rfl
  | erase ps pc =>
    simp only [Act.perform, State.eraseChecked]
    split
    · exact inv_goOn hs hf ⟨rfl, rfl, rfl⟩ (hhead rfl) hopen fun _ => hcrc rfl
    · exact inv_goOn hs hf ⟨rfl, rfl, rfl⟩ (hhead hallow) hopen fun _ => hcrc rfl
  | eraseUnlock e => exact inv_goOn hs hf ⟨rfl, rfl, rfl⟩ (hhead hallow) rfl fun _ => hcrc rfl
  | eraseRun e => exact inv_goOn hs hf ⟨rfl, rfl, rfl⟩ (hhead hallow) hopen fun _ => hcrc rfl
  | eraseLock err | progLock | progAbort => exact inv_goOn hs hf ⟨rfl, rfl, rfl⟩ (hhead rfl) rfl fun _ => hcrc rfl
  | write a p =>
    simp only [Act.perform, State.writeChecked]
    split
    · split
      · exact hraise rfl
      · exact inv_goOn hs hf ⟨rfl, rfl, rfl⟩ (hhead hallow) hopen fun _ => hcrc rfl
    · exact inv_goOn hs hf ⟨rfl, rfl, rfl⟩ (hhead rfl) hopen fun _ => hcrc rfl
  | progUnlock a p =>
    simp only [Act.perform, State.progUnlocked]
    split
    · cases p <;> exact inv_goOn hs hf ⟨rfl, rfl, rfl⟩ (hhead hallow) rfl fun _ => hcrc rfl
    · exact inv_goOn hs hf ⟨rfl, rfl, rfl⟩ (hhead rfl) rfl fun _ => hcrc rfl
  | progByte a b bs =>
    simp only [Act.perform, State.progStepped]
    split
    · cases bs <;> exact inv_goOn hs hf ⟨rfl, rfl, rfl⟩ (hhead hallow) hopen fun _ => hcrc rfl
    · exact inv_goOn hs hf ⟨rfl, rfl, rfl⟩ (hhead hallow) hopen fun _ => hcrc rfl

theorem advance_inv {s : State} {c : Byte} {l : List Act} (hs : s.Inv) (hf : s.fsm = .exec c l) : s.advance.Inv := by
  cases l with
  | nil =>
    rw [advance_nil hf]
    exact (inv_outside_iff rfl).mpr ⟨hs.cfg, ⟨hs.canonical, hs.within, trivial⟩, hs.crc (by rw [hf]; rfl),
      hs.scope.trans (by rw [hf]; rfl), by simpa [hf] using hs.fault⟩
  | cons a rest =>
    rw [advance_cons hf]
    exact perform_inv hs hf

/-! ### Ticks and steps -/

theorem moves_inv {s t : State} (hs : s.Inv) (h : Moves s t) : t.Inv := by
  cases h with
  | cycleStart hf => exact cycleStart_inv hs hf
  | length hf => exact receiveLength_inv hs hf
  | body hf => exact receiveBody_inv hs hf
  | enter hf hi => exact enter_inv hs hf hi
  | unknown hf he => exact unknownCode_inv hs hf
  | advance hf => exact advance_inv hs hf

/-- Settles O51: every move keeps the invariant. -/
theorem tickKeepsInvariant : Obligations.TickKeepsInvariant := by
  intro s t hs h
  exact moves_inv hs (tick_moves h).2.2

/-- Settles O50: a step is a tick and then moves inside the handler, each of which keeps the invariant. -/
theorem stepKeepsInvariant : Obligations.StepKeepsInvariant := by
  intro s t hs h
  obtain ⟨u, hu, rfl⟩ := step_tick_finish h
  exact finish_induction u (tickKeepsInvariant s u hs hu) fun v c l hf hv => advance_inv hv hf

end Sys2Proof.Machine
end

section
/-! PROOF. What the moves do to the rest of the state: the configuration and the trace at every step, the control state at
every tick, and the buffer from the cycle start to the end of a handler. -/

namespace Sys2Proof.Machine

/-! ### The steps of the fetch cycle -/

theorem step_idle {s : State} (hwf : s.cfg.wf = true) (hfault : s.fault = none) (hf : s.fsm = .idle) :
    step s = .next s.cycleStart := by
  simp only [step, hwf, hfault, hf, if_true]

theorem step_rxLen {s : State} (hwf : s.cfg.wf = true) (hfault : s.fault = none) (hf : s.fsm = .rxLen) :
    step s = .next s.receiveLength := by
  simp only [step, hwf, hfault, hf, if_true]

theorem step_rxBody {s : State} (hwf : s.cfg.wf = true) (hfault : s.fault = none) (hf : s.fsm = .rxBody) :
    step s = .next s.receiveBody := by
  simp only [step, hwf, hfault, hf, if_true]

/-- Settles O18: in both control states the receive waits. -/
theorem receiveWaitsForHost : Obligations.ReceiveWaitsForHost := by
  rintro s bs hwf hfault hrx (⟨hf, rfl⟩ | ⟨hf, hfit, hlen⟩)
  · rw [step_rxLen hwf hfault hf, receiveLength_waits hrx]
  · rw [step_rxBody hwf hfault hf, receiveBody_waits hfit hlen hrx]

/-! ### The configuration and the trace -/

/-- No move writes the configuration, and each only appends to the trace (R29, R10). -/
theorem moves_frame {s t : State} (h : Moves s t) : t.cfg = s.cfg ∧ ∃ evs, t.trace = s.trace ++ evs := by
  cases h with
  | cycleStart hf => exact ⟨rfl, [], (List.append_nil _).symm⟩
  | length hf =>
    obtain ⟨b, rest, e⟩ | ⟨rest, e⟩ | e := receiveLength_cases s
    · rw [e]; exact ⟨rfl, _, rfl⟩
    · rw [e]; exact ⟨rfl, _, List.append_assoc _ _ _⟩
    · rw [e]; exact ⟨rfl, [], (List.append_nil _).symm⟩
  | body hf =>
    obtain ⟨-, e⟩ | ⟨-, ⟨_, _, _, bs, -, e⟩ | ⟨_, _, _, bs, -, e⟩ | e⟩ := receiveBody_cases s
    · rw [e]; exact ⟨rfl, _, rfl⟩
    · rw [e]; exact ⟨rfl, _, rfl⟩
    · rw [e]; exact ⟨rfl, _, List.append_assoc _ _ _⟩
    · rw [e]; exact ⟨rfl, [], (List.append_nil _).symm⟩
  | enter hf hi => exact ⟨rfl, [], (List.append_nil _).symm⟩
  | unknown hf he =>
    obtain ⟨evs, e⟩ := unknownCode_eq s
    rw [e]; exact ⟨rfl, evs, rfl⟩
  | @advance c l hf =>
    cases l with
    | nil => rw [advance_nil hf]; exact ⟨rfl, [], (List.append_nil _).symm⟩
    | cons a rest =>
      rw [advance_cons hf]
      obtain ⟨hcfg, -, -, htrace⟩ := perform_frame a c rest s
      exact ⟨hcfg, htrace⟩

/-- Settles O55: a step is a move and then the rest of a handler, and both keep it. -/
theorem configurationFixedAndTraceGrows : Obligations.ConfigurationFixedAndTraceGrows := by
  intro s t h
  obtain ⟨u, hu, rfl⟩ := step_tick_finish h
  obtain ⟨hcfg, evs, htrace⟩ := moves_frame (tick_moves hu).2.2
  obtain ⟨hcfg', -, -, evs', htrace'⟩ := finish_frame u
  exact ⟨hcfg'.trans hcfg, evs ++ evs', by rw [htrace', htrace, List.append_assoc]⟩

/-! ### The control state -/

/-- Where a move inside a handler leads (R20): on in the handler, back to S_IDLE with nothing left, to S_FAULT by a read past
the buffer, or to S_HANDOFF by the handoff. -/
theorem advance_cases {s : State} {c : Byte} {l : List Act} (hf : s.fsm = .exec c l) :
    (∃ l', s.advance.fsm = .exec c l') ∨ (l = [] ∧ s.advance = s.toIdle) ∨
      (s.advance = s.raise .bufOob ∧ ∃ a rest k, l = a :: rest ∧ a.lastRead s = some k ∧ s.cfg.bufCap ≤ k) ∨
      ∃ target rest, l = .handoff target :: rest ∧ s.advance = s.handOff target := by
  cases l with
  | nil => exact .inr (.inl ⟨rfl, advance_nil hf⟩)
  | cons a rest =>
    rw [advance_cons hf]
    obtain ⟨l', h, -⟩ | h | h := perform_cases a c rest s
    · exact .inl ⟨l', h⟩
    · obtain ⟨target, rfl⟩ := perform_handoff h
      exact .inr (.inr (.inr ⟨target, rest, rfl, rfl⟩))
    · obtain ⟨e, k, hread, hcap⟩ := perform_fault h
      exact .inr (.inr (.inl ⟨e, a, rest, k, rfl, hread, hcap⟩))

/-- From a state with the invariant a handoff is left only in GoToAddr's handler, for the successor of a valid address. -/
theorem inv_handoff {s : State} {c : Byte} {target : Word} {rest : List Act} (hs : s.Inv)
    (hf : s.fsm = .exec c (.handoff target :: rest)) : c = 0x14 ∧ validate s.cfg (target - 1) = true := by
  have h := ((positionOk_cons _ _ _ _).mp (hs.position _ _ hf)).1
  simpa only [Act.allowedIn, Bool.and_eq_true, decide_eq_true_eq] using h

/-- Settles O53: each move with the outcome of its receive, of the decoder, or of the action performed. -/
theorem controlTransitions : Obligations.ControlTransitions := by
  intro s t h
  obtain ⟨-, hfault, hmove⟩ := tick_moves h
  cases hmove with
  | cycleStart hf => exact .inl ⟨hf, rfl⟩
  | length hf =>
    refine .inr (.inl ⟨hf, ?_⟩)
    obtain ⟨b, rest, e⟩ | ⟨rest, e⟩ | e := receiveLength_cases s
    · rw [e]; exact .inr (.inl ⟨rfl, b, rfl⟩)
    · rw [e]; exact .inl ⟨rfl, List.append_assoc _ _ _⟩
    · exact .inr (.inr e)
  | body hf =>
    refine .inr (.inr (.inl ⟨hf, ?_⟩))
    obtain ⟨hcap, e⟩ | ⟨hfit, ⟨_, _, _, bs, hlen, e⟩ | ⟨_, _, _, bs, -, e⟩ | e⟩ := receiveBody_cases s
    · rw [e]; exact .inl ⟨hcap, rfl⟩
    · rw [e]; exact .inr ⟨hfit, .inr (.inl ⟨rfl, bs, hlen, rfl⟩)⟩
    · rw [e]; exact .inr ⟨hfit, .inl ⟨rfl, List.append_assoc _ _ _⟩⟩
    · exact .inr ⟨hfit, .inr (.inr e)⟩
  | @enter hf i hi =>
    have hcode : i.code = s.buf.read 1 := decodeFrom_code hi
    exact .inr (.inr (.inr (.inl ⟨hf, .inl ⟨hcode ▸ code_mem_helpTable i, _, congrArg (Fsm.exec · _) hcode⟩⟩)))
  | unknown hf he =>
    exact .inr (.inr (.inr (.inl ⟨hf, .inr ⟨(decodeFrom_error he).1, unknownCode_fsm s⟩⟩)))
  | @advance c l hf =>
    refine .inr (.inr (.inr (.inr ⟨c, l, hf, ?_⟩)))
    obtain ⟨l', h⟩ | ⟨hnil, e⟩ | ⟨e, hread⟩ | ⟨target, rest, rfl, e⟩ := advance_cases hf
    · exact .inl ⟨l', h⟩
    · rw [e]; exact .inr (.inl ⟨hnil, rfl⟩)
    · rw [e]; exact .inr (.inr (.inl ⟨rfl, by simp [hfault], hread⟩))
    · rw [e]
      refine .inr (.inr (.inr ⟨rfl, ⟨target, rfl⟩, fun hs => ?_⟩))
      obtain ⟨hc, hvalid⟩ := inv_handoff hs hf
      exact ⟨hc, target - 1, hvalid, by rw [BitVec.sub_add_cancel]; rfl⟩

/-! ### The buffer -/

/-- No move inside a handler writes the buffer (R23). -/
theorem advance_buf {s : State} {c : Byte} {l : List Act} (hf : s.fsm = .exec c l) : s.advance.buf = s.buf := by
  cases l with
  | nil => rw [advance_nil hf]; rfl
  | cons a rest =>
    rw [advance_cons hf]
    exact (perform_frame a c rest s).2.1

/-- No handler writes the buffer (R23). -/
theorem exec_buf {i : Instr} {s t : State} (h : exec i s = .next t) : t.buf = s.buf := by
  rw [exec_eq] at h
  cases h
  exact (finish_frame (s.enter i)).2.1

/-- In S_DISPATCH no tick writes the buffer. -/
theorem tick_dispatch_buf {s t : State} (hf : s.fsm = .dispatch) (h : tick s = .next t) : t.buf = s.buf := by
  cases (tick_moves h).2.2 with
  | enter => rfl
  | unknown =>
    obtain ⟨evs, e⟩ := unknownCode_eq s
    rw [e]
  | _ h' => simp [hf] at h'

/-- In S_EXEC no tick writes the buffer. -/
theorem tick_exec_buf {s t : State} {c : Byte} {l : List Act} (hf : s.fsm = .exec c l) (h : tick s = .next t) :
    t.buf = s.buf := by
  cases (tick_moves h).2.2 with
  | advance h' => exact advance_buf h'
  | _ h' => simp [hf] at h'

/-- A cycle start and a length byte leave the buffer holding that byte (R100, R103). -/
theorem cycleStart_receiveLength {s : State} {b : Byte} {rest : List RxItem} (h : s.rx = .byte b :: rest) :
    s.cycleStart.receiveLength =
      { s with
        fsm := .rxBody, rx := rest, buf := Memory.ofBytes [b], trace := s.trace ++ [.rxReq 1 (.ok [b])] } :=
  receiveLength_byte (s := s.cycleStart) h

/-- From a buffer that holds the length byte, a body that has come and fits leads to S_DISPATCH with the frame in the
buffer and zero beyond it (R105, R107, R23). -/
theorem receiveBody_frame {s : State} {n : Byte} {bs : List Byte} {rest : List RxItem} (hbuf : s.buf = Memory.ofBytes [n])
    (hn : n.toNat = bs.length) (hcap : bs.length < s.cfg.bufCap) (hrx : s.rx = bs.map .byte ++ rest)
    (hzero : bs = [] → s.rxZeroAnswer = true) :
    s.receiveBody.fsm = .dispatch ∧ s.receiveBody.rx = rest ∧ s.receiveBody.buf = Memory.ofBytes (n :: bs) := by
  have hlen : s.frameLen = bs.length := by rw [State.frameLen, hbuf, Memory.read_ofBytes]; exact hn
  have hfit : s.frameFits := lt_of_eq_of_lt hlen hcap
  cases bs with
  | nil =>
    rw [receiveBody_nothing hfit hlen (hzero rfl)]
    exact ⟨rfl, hrx, hbuf⟩
  | cons b bs =>
    rw [receiveBody_bytes hfit (by simp [hlen]) hlen.symm hrx]
    exact ⟨rfl, rfl, by rw [State.bodyStored, hbuf]; rfl⟩

/-- Settles O56: the cycle start, the two receives, and then nothing that writes the buffer. -/
theorem handlersSeeOnlyReceivedBytes : Obligations.HandlersSeeOnlyReceivedBytes := by
  refine ⟨fun s n bs rest hs hf hn hzero hcap hrx => ?_, fun s t c l hf h k => by rw [tick_exec_buf hf h]⟩
  obtain ⟨hwf, -, -, -, hfault⟩ := (inv_outside_iff (by rw [hf]; rfl)).mp hs
  have h2 := cycleStart_receiveLength (rest := bs.map .byte ++ rest) hrx
  obtain ⟨hdispatch, hrest, hbuf⟩ :=
    receiveBody_frame (s := s.cycleStart.receiveLength) (by rw [h2]) hn (by rw [h2]; exact hcap) (by rw [h2])
      (by rw [h2]; exact hzero)
  refine ⟨s.cycleStart, s.cycleStart.receiveLength, s.cycleStart.receiveLength.receiveBody, step_idle hwf hfault hf,
    step_rxLen hwf hfault rfl, step_rxBody ?_ ?_ ?_, hdispatch, hrest, fun k => ?_, fun t h k => ?_, fun i t h k => ?_⟩
  · rw [h2]; exact hwf
  · rw [h2]; exact hfault
  · rw [h2]
  · rw [hbuf, Memory.read_ofBytes]
  · rw [tick_dispatch_buf hdispatch h]
  · rw [exec_buf h]

/-! ### Reset and launch -/

theorem resetWith_inv {cfg : Cfg} (h : cfg.wf = true) : (State.resetWith cfg).Inv :=
  (inv_outside_iff rfl).mpr ⟨h, ⟨rfl, rfl, trivial⟩, rfl, rfl, rfl⟩

/-- The first byte the transport delivers is the length byte of the frame it is aligned to (R292 (c)). -/
theorem alignedTo_head {s : State} {frame : List Byte} {b : Byte} {rest : List RxItem} (h : s.alignedTo frame)
    (hrx : s.rx = .byte b :: rest) : frame.head? = some b := by
  obtain ⟨hframe, hprefix⟩ := h
  rw [hrx, bytesOf] at hprefix
  cases frame with
  | nil => cases hframe
  | cons n body =>
    rw [List.cons_prefix_cons, List.cons_prefix_cons] at hprefix
    obtain ⟨rfl, -⟩ | ⟨rfl, -⟩ := hprefix <;> rfl

/-- Settles O49: the reset state, and every launch, followed for two steps. -/
theorem invariantAtReset : Obligations.InvariantAtReset := by
  refine ⟨fun cfg => resetWith_inv, resetWith_inv (by decide), fun s around hl hf hopen hfault hwf hin => ⟨?_, ?_⟩⟩
  · refine (inv_outside_iff (by rw [hf]; rfl)).mpr ⟨hl.cfg, ⟨hwf, hin, ?_⟩, hl.crc, hopen, hfault⟩
    simp only [State.bufferOk, hf]
  · intro b rest hrx
    refine ⟨_, _, step_idle hl.cfg hfault hf, step_rxLen hl.cfg hfault rfl, ?_⟩
    rw [cycleStart_receiveLength hrx, Memory.read_ofBytes]
    exact ⟨rfl, alignedTo_head hl.aligned hrx⟩

end Sys2Proof.Machine
end

section
/-! PROOF. What each handler leaves unchanged: the final state of a handler behind its gate, and the frame of each group of
commands. -/

namespace Sys2Proof.Machine

/-- The frame of a handler: the fields its group of commands may change, each taken from the final state. -/
def FrameOf (s t : State) : Instr → Prop
  | .getChipId =>
    t = { s with fsm := t.fsm, crcAcc := t.crcAcc, trace := t.trace, draws := t.draws
                 oracle := { s.oracle with ident := t.oracle.ident } }
  | .enRWProtect =>
    t = { s with fsm := t.fsm, crcAcc := t.crcAcc, trace := t.trace, draws := t.draws
                 oracle := { s.oracle with opt := t.oracle.opt } }
  | .flashErase _ _ =>
    t = { s with fsm := t.fsm, crcAcc := t.crcAcc, trace := t.trace, draws := t.draws, flOpen := t.flOpen
                 oracle := { s.oracle with
                   unlock := t.oracle.unlock, erase := t.oracle.erase, lock := t.oracle.lock } }
  | .memWrite _ _ =>
    t = { s with fsm := t.fsm, crcAcc := t.crcAcc, trace := t.trace, draws := t.draws, flOpen := t.flOpen
                 fault := t.fault
                 oracle := { s.oracle with
                   unlock := t.oracle.unlock, prog := t.oracle.prog, lock := t.oracle.lock } }
  | _ => t = { s with fsm := t.fsm, crcAcc := t.crcAcc, trace := t.trace }

/-- The changes every group may make are in every group's frame. -/
theorem frameOf_of_eq {s t : State} (h : t = { s with fsm := t.fsm, crcAcc := t.crcAcc, trace := t.trace }) (i : Instr) :
    FrameOf s t i := by
  cases i with
  | getChipId | enRWProtect | flashErase ps pc | memWrite a p => rw [h]; rfl
  | _ => exact h

/-- A handler whose gate fails changes fsm, the trace, and the accumulator back to CRC_INIT or not at all (R111, R117). -/
theorem nacked_frame (s : State) :
    s.nacked = { s with fsm := s.nacked.fsm, crcAcc := s.nacked.crcAcc, trace := s.nacked.trace } ∧
      (s.nacked.crcAcc = s.cfg.crcInit ∨ s.nacked.crcAcc = s.crcAcc) := by
  unfold State.nacked
  split
  · exact ⟨rfl, .inr rfl⟩
  · exact ⟨rfl, .inl rfl⟩

/-! ### The actions after the ACK -/

/-- The program loop uses up answers to FL_PROG and appends to the trace (R173). -/
theorem programBytes_frame (s : State) (a : Word) (bs : List Byte) :
    ∃ trace draws prog, (s.programBytes a bs).1 =
      { s with trace := trace, draws := draws, oracle := { s.oracle with prog := prog } } := by
  induction bs generalizing s a with
  | nil => exact ⟨_, _, _, rfl⟩
  | cons b bs ih =>
    unfold State.programBytes
    split
    · exact ih (s.flProg a b) (a + 1)
    · exact ⟨_, _, _, rfl⟩

section
variable (s : State) (c : Byte)

/-- GoToAddr's check, and the handoff where it is passed. -/
theorem finish_goTo_frame (a : Word) :
    FrameOf s (s.goOn c [.goTo a]).finish (.goToAddr a) ∧ (s.goOn c [.goTo a]).finish.crcAcc = s.crcAcc := by
  cases h : validate s.cfg a with
  | true =>
    rw [finish_goTo_valid c [] h]
    exact ⟨rfl, rfl⟩
  | false =>
    rw [finish_goTo_invalid c [] h, finish_goOn_nil]
    exact ⟨rfl, rfl⟩

/-- ERASE, whether its checks are passed or not. -/
theorem finish_erase_frame (ps pc : Byte) :
    FrameOf s (s.goOn c [.erase ps pc]).finish (.flashErase ps pc) ∧
      (s.goOn c [.erase ps pc]).finish.crcAcc = s.crcAcc := by
  cases h : eraseCfg? s.cfg ps pc with
  | none =>
    rw [finish_erase_invalid c [] h, finish_goOn_nil]
    exact ⟨rfl, rfl⟩
  | some e =>
    rw [finish_erase_valid c [] h, finish_goOn_nil]
    exact ⟨rfl, rfl⟩

/-- PROGRAM, whatever its unlock and its bytes are answered with. -/
theorem finish_progUnlock_frame (a : Word) (p : List Byte) :
    FrameOf s (s.goOn c [.progUnlock a p]).finish (.memWrite a p) ∧
      (s.goOn c [.progUnlock a p]).finish.crcAcc = s.crcAcc := by
  by_cases hu : s.unlockAnswer = .ok
  · rw [finish_progUnlock_ok c [] hu, finish_progNext]
    obtain ⟨trace, draws, prog, h⟩ := programBytes_frame s.flUnlock a p
    generalize s.flUnlock.programBytes a p = r at h
    obtain ⟨u, done⟩ := r
    subst h
    cases done <;> (dsimp only; rw [finish_goOn_nil]; exact ⟨rfl, rfl⟩)
  · rw [finish_progUnlock_err c [] hu, finish_goOn_nil]
    exact ⟨rfl, rfl⟩

/-- MemWrite after its ACK: the status byte, the fault, or PROGRAM. -/
theorem finish_write_frame (a : Word) (p : List Byte) :
    FrameOf s (s.goOn c [.write a p]).finish (.memWrite a p) ∧
      (s.goOn c [.write a p]).finish.crcAcc = s.crcAcc := by
  cases h : validate s.cfg a with
  | true =>
    by_cases hcap : s.cfg.bufCap ≤ 6 + p.length
    · rw [finish_write_past c [] h hcap]
      exact ⟨rfl, rfl⟩
    · rw [finish_write_valid c [] h (Nat.lt_of_not_le hcap)]
      exact finish_progUnlock_frame s c a p
  | false =>
    rw [finish_write_invalid c [] h p, finish_goOn_nil]
    exact ⟨rfl, rfl⟩

end

/-! ### Handlers -/

/-- A handler whose gate passes: it starts from CRC_INIT and leaves it there. -/
theorem exec_pass_frame {i : Instr} {s t : State} (hfit : s.frameFits) (hp : s.gatePasses = true)
    (h : exec i s = .next t) : FrameOf s t i ∧ t.crcAcc = s.cfg.crcInit := by
  cases i with
  | getChipId =>
    cases h.symm.trans (runHandler_pass s 0x12 [.readId] hfit hp)
    rw [finish_goOn_cons]
    have e := finish_sends_last s.gated.idRead 0x12
      [(chipId s.idAnswer).extractLsb' 0 8, (chipId s.idAnswer).extractLsb' 8 8]
    exact e ▸ ⟨rfl, rfl⟩
  | enRWProtect =>
    cases h.symm.trans (runHandler_ack s 0x17 [Config.ack, 0x01] [.readOpt] hfit hp)
    rw [finish_goOn_cons]
    have e := finish_sends_last (s.gated.sent [Config.ack, 0x01]).optRead 0x17 [s.optAnswer]
    exact e ▸ ⟨rfl, rfl⟩
  | goToAddr a =>
    cases h.symm.trans (runHandler_ack s 0x14 [Config.ack, 0x01] [.goTo a] hfit hp)
    exact finish_goTo_frame (s.gated.sent [Config.ack, 0x01]) 0x14 a
  | flashErase ps pc =>
    cases h.symm.trans (runHandler_ack s 0x15 [Config.ack, 0x01] [.erase ps pc] hfit hp)
    exact finish_erase_frame (s.gated.sent [Config.ack, 0x01]) 0x15 ps pc
  | memWrite a p =>
    cases h.symm.trans (runHandler_ack s 0x16 [Config.ack, 0x01] [.write a p] hfit hp)
    exact finish_write_frame (s.gated.sent [Config.ack, 0x01]) 0x16 a p
  | _ =>
    cases h.symm.trans (runHandler_sends s _ _ hfit hp)
    exact ⟨rfl, rfl⟩

/-- A handler whose gate fails. -/
theorem exec_fail_frame {i : Instr} {s t : State} (hfit : s.frameFits) (hp : s.gatePasses = false)
    (h : exec i s = .next t) : FrameOf s t i ∧ (t.crcAcc = s.cfg.crcInit ∨ t.crcAcc = s.crcAcc) := by
  obtain ⟨body, hprog, -⟩ := programOf_gate s.cfg i
  rw [exec_eq, State.enter, hprog, finish_gate_fail s _ _ hfit hp] at h
  cases h
  exact ⟨frameOf_of_eq (nacked_frame s).1 i, (nacked_frame s).2⟩

theorem exec_frame {i : Instr} {s t : State} (hfit : s.frameFits) (h : exec i s = .next t) :
    FrameOf s t i ∧ (t.crcAcc = s.cfg.crcInit ∨ t.crcAcc = s.crcAcc) := by
  cases hp : s.gatePasses with
  | true => exact (exec_pass_frame hfit hp h).imp_right .inl
  | false => exact exec_fail_frame hfit hp h

/-- Settles O48: each clause reads the frame of its group. -/
theorem handlerFrames : Obligations.HandlerFrames := by
  intro i s t hfit h
  obtain ⟨hframe, hcrc⟩ := exec_frame hfit h
  have hkeep : t.cfg = s.cfg ∧ t.buf = s.buf ∧ t.rx = s.rx := by
    rw [exec_eq] at h
    cases h
    obtain ⟨hcfg, hbuf, hrx, -⟩ := finish_frame (s.enter i)
    exact ⟨hcfg, hbuf, hrx⟩
  obtain ⟨hcfg, hbuf, hrx⟩ := hkeep
  refine ⟨⟨hcfg, fun k => by rw [hbuf], hrx, hcrc, fun hi => ?_⟩, fun hi => ?_, ?_, ?_, ?_, ?_, ?_⟩
  · cases i with
    | memWrite a p => exact absurd rfl (hi a p)
    | _ => exact (congrArg State.fault hframe).trans rfl
  · cases i with
    | getChipId | enRWProtect | flashErase ps pc | memWrite a p => simp at hi
    | _ => exact hframe
  · rintro a rfl
    exact hframe
  · rintro rfl
    exact hframe
  · rintro rfl
    exact hframe
  · rintro ⟨ps, pc, rfl⟩
    exact hframe
  · rintro ⟨a, p, rfl⟩
    exact hframe

end Sys2Proof.Machine
end

section
/-! PROOF. The encoding: byte 1 selects the row of the opcode table, the operands are read at fixed offsets, and the frame of an
instruction has its natural length and is decoded back to it. -/

namespace Sys2Proof

/-! ### The decoder -/

/-- A row of the opcode table whose code is byte 1 is the answer, since the codes are distinct (R77). -/
theorem decodeFrom_of_row {rd : Nat → Byte} {i : Instr} (h : (rd 1, i) ∈ opcodeRows rd) : decodeFrom rd = .ok i := by
  cases hd : decodeFrom rd with
  | ok j =>
    have hdistinct : ((opcodeRows rd).map Prod.fst).Nodup := opcodeRows_distinct
    have hrow : (rd 1, j) = (rd 1, i) := List.inj_on_of_nodup_map hdistinct (decodeFrom_mem hd) h rfl
    rw [(Prod.mk.inj hrow).2]
  | error e =>
    have hcode : rd 1 ∈ (opcodeRows rd).map Prod.fst := List.mem_map_of_mem h
    exact absurd hcode (decodeFrom_error hd).1

/-- A byte 1 that is no code of the table is an unknown code (R84). -/
theorem decodeFrom_unknown {rd : Nat → Byte} (h : rd 1 ∉ Machine.helpTable) :
    decodeFrom rd = .error (.unknownCode (rd 1)) := by
  cases hd : decodeFrom rd with
  | ok i => exact absurd (decodeFrom_code hd ▸ code_mem_helpTable i) h
  | error e => rw [(decodeFrom_error hd).2]

theorem decodeFrom_goToAddr {rd : Nat → Byte} (h : rd 1 = 0x14) : decodeFrom rd = .ok (.goToAddr (le32At rd 2)) :=
  decodeFrom_of_row (by simp [opcodeRows, h])

theorem decodeFrom_flashErase {rd : Nat → Byte} (h : rd 1 = 0x15) :
    decodeFrom rd = .ok (.flashErase (rd 2) (rd 3)) :=
  decodeFrom_of_row (by simp [opcodeRows, h])

theorem decodeFrom_memWrite {rd : Nat → Byte} (h : rd 1 = 0x16) :
    decodeFrom rd = .ok (.memWrite (le32At rd 2) (bytesAt rd 7 (rd 6).toNat)) :=
  decodeFrom_of_row (by simp [opcodeRows, h])

/-- Settles O4: each known code has its row in the table, and a code without a row is rejected. -/
theorem twelveCommandCodes : Obligations.TwelveCommandCodes := by
  intro rd
  refine ⟨fun p hp h => decodeFrom_of_row ?_, fun h => ⟨_, decodeFrom_goToAddr h⟩,
    fun h => ⟨_, _, decodeFrom_flashErase h⟩, fun h => ⟨_, _, decodeFrom_memWrite h⟩, decodeFrom_unknown⟩
  have hrows : [((0x10 : Byte), Instr.getVersion), (0x11, .getHelp), (0x12, .getChipId), (0x13, .getRdpStatus),
      (0x17, .enRWProtect), (0x18, .memRead), (0x19, .readSectorStatus), (0x20, .otpRead), (0x21, .changeRopLevel)] ⊆
      opcodeRows rd := by
    simp [opcodeRows]
  exact h ▸ hrows hp

/-- Settles O5: the operands of each row, by which byte each bit of a word and each byte of a list come from. -/
theorem operandsAtFixedOffsets : Obligations.OperandsAtFixedOffsets := by
  refine fun rd => ⟨fun h => ⟨_, decodeFrom_goToAddr h, le32At_bit rd 2⟩, decodeFrom_flashErase,
    fun h => ⟨_, _, decodeFrom_memWrite h, le32At_bit rd 2, bytesAt_length rd 7 _, fun j hj => ?_⟩⟩
  rw [bytesAt_length] at hj
  exact bytesAt_get rd 7 _ j hj

/-! ### The frame of an instruction -/

/-- N counts the command, the arguments and the CRC: it is the natural length (R71, R79). -/
theorem args_length (i : Instr) : 5 + i.args.length = i.naturalN := by
  cases i with
  | memWrite a p =>
    simp only [Instr.args, Instr.naturalN, leBytes, List.length_append, List.length_cons, List.length_nil]
    omega
  | _ => rfl

theorem encode_head (cfg : Cfg) (i : Instr) : (encode cfg i)[0]? = some (BitVec.ofNat 8 i.naturalN) := by
  rw [← args_length]
  rfl

theorem encode_length (cfg : Cfg) (i : Instr) : (encode cfg i).length = i.naturalN + 1 := by
  rw [← args_length]
  simp only [encode, sealFrame, coveredBytes, leBytes, List.length_append, List.length_cons, List.length_nil]
  omega

/-- Settles O8: the first byte of a frame and its number of bytes, at the natural length of each command. -/
theorem naturalFrameLengths : Obligations.NaturalFrameLengths := by
  refine fun cfg => ⟨fun i hi => ?_, fun a => ⟨encode_head cfg _, encode_length cfg _⟩,
    fun ps pc => ⟨encode_head cfg _, encode_length cfg _⟩, fun a p hwf => ⟨encode_head cfg _, ?_, ?_⟩⟩
  · have hN : i.naturalN = 5 := by
      revert i
      decide
    rw [encode_head, encode_length, hN]
    exact ⟨rfl, rfl⟩
  · have hp : p.length ≤ 245 := of_decide_eq_true hwf
    omega
  · rw [encode_length, Instr.naturalN]
    omega

/-- Byte 1 of an instruction's frame is its code (R71). -/
theorem frameByte_encode_code (cfg : Cfg) (i : Instr) : frameByte (encode cfg i) 1 = i.code := rfl

/-- Argument `k` of an instruction's frame is byte `2 + k` (R71). -/
theorem frameByte_encode_arg (cfg : Cfg) (i : Instr) {k : Nat} (h : k < i.args.length) :
    frameByte (encode cfg i) (2 + k) = i.args.getD k 0 := by
  rw [Nat.add_comm]
  exact List.getD_append i.args _ 0 k h

/-- Settles O7: byte 1 of the frame is the code, and every operand is read where the encoder writes it. -/
theorem decodeEncodeRoundTrip : Obligations.DecodeEncodeRoundTrip := by
  intro cfg i hwf
  have hcode := frameByte_encode_code cfg i
  have harg := fun k => frameByte_encode_arg cfg i (k := k)
  unfold decode
  cases i with
  | goToAddr a => rw [decodeFrom_goToAddr hcode, le32At_leBytes a _ 2 harg]
  | flashErase ps pc => exact decodeFrom_flashErase hcode
  | memWrite a p =>
    have hp : p.length ≤ 245 := of_decide_eq_true hwf
    have haddr : le32At (frameByte (encode cfg (.memWrite a p))) 2 = a :=
      le32At_leBytes a _ 2 fun k hk => (harg k (by simp [Instr.args, leBytes]; omega)).trans
        (List.getD_append (leBytes a) _ _ _ hk)
    have hlen : (frameByte (encode cfg (.memWrite a p)) 6).toNat = p.length := by
      show (BitVec.ofNat 8 p.length).toNat = p.length
      rw [BitVec.toNat_ofNat, Nat.mod_eq_of_lt (by omega)]
    have hpayload : bytesAt (frameByte (encode cfg (.memWrite a p))) 7 p.length = p := by
      refine bytesAt_eq _ 7 p fun k hk => ?_
      have h := harg (5 + k) (by simp [Instr.args, leBytes]; omega)
      rw [← Nat.add_assoc] at h
      rw [h]
      simp [Instr.args, leBytes, Nat.add_comm 5 k]
    rw [decodeFrom_memWrite hcode, haddr, hlen, hpayload]
  | _ => exact decodeFrom_of_row (by simp [opcodeRows, hcode, Instr.code])

end Sys2Proof
end

section
/-! PROOF. Every erase a handler asks for lies inside the device: ERASE's checks make such a configuration, and the actions after
them only pass it on. -/

namespace Sys2Proof.Machine

/-- A page erase starts inside the device and ends at its last page or before (R83); a mass erase names no page. -/
def EraseCfg.inside (cfg : Cfg) : EraseCfg → Bool
  | .mass => true
  | .pages first count => decide (first < cfg.maxPages) && decide (first + count ≤ cfg.maxPages)

/-- An FL_ERASE that was issued is inside the device. -/
def Event.eraseInside (cfg : Cfg) : Event → Bool
  | .flErase e _ _ => e.inside cfg
  | _ => true

/-- An erase that an action has pending is inside the device. -/
def Act.eraseInside (cfg : Cfg) : Act → Bool
  | .eraseUnlock e => e.inside cfg
  | .eraseRun e => e.inside cfg
  | _ => true

/-- The actions left in the handler that runs. -/
def Fsm.todo : Fsm → List Act
  | .exec _ todo => todo
  | _ => []

/-- From `s` to `u` only erases inside the device have been issued, and only such are pending. -/
structure ErasesInside (s u : State) : Prop where
  cfg : u.cfg = s.cfg
  issued : ∃ evs, u.trace = s.trace ++ evs ∧ evs.all (Event.eraseInside s.cfg) = true
  pending : u.fsm.todo.all (Act.eraseInside s.cfg) = true

theorem ErasesInside.trans {s u v : State} (h : ErasesInside s u) (h' : ErasesInside u v) : ErasesInside s v := by
  obtain ⟨hcfg, ⟨evs, htrace, hevs⟩, -⟩ := h
  obtain ⟨hcfg', ⟨evs', htrace', hevs'⟩, hpending⟩ := h'
  rw [hcfg] at hcfg' hevs' hpending
  exact ⟨hcfg', ⟨evs ++ evs', by rw [htrace', htrace, List.append_assoc], by rw [List.all_append, hevs, hevs']; rfl⟩,
    hpending⟩

/-- A move that issues nothing. -/
theorem erasesInside_silent {s u : State} (hcfg : u.cfg = s.cfg) (htrace : u.trace = s.trace)
    (h : u.fsm.todo.all (Act.eraseInside s.cfg) = true) : ErasesInside s u :=
  ⟨hcfg, ⟨[], by rw [htrace, List.append_nil], rfl⟩, h⟩

/-- ERASE's checks let only an erase inside the device pass: the page count is clamped (R164, R165). -/
theorem eraseCfg?_inside {cfg : Cfg} {ps pc : Byte} {e : EraseCfg} (h : eraseCfg? cfg ps pc = some e) :
    e.inside cfg = true := by
  unfold eraseCfg? at h
  split at h
  · cases h
  · split at h
    · cases h; rfl
    · split at h
      · cases h
      · cases h
        simp only [EraseCfg.inside, Bool.and_eq_true, decide_eq_true_eq]
        omega

theorem progNext_eraseInside (cfg : Cfg) (a : Word) (bs : List Byte) : (progNext a bs).eraseInside cfg = true := by
  cases bs <;> rfl

/-- Every action issues an erase only if it was pending, and adds one only by ERASE's checks. -/
theorem perform_erasesInside (a : Act) (c : Byte) (rest : List Act) (s : State)
    (h : (a :: rest).all (Act.eraseInside s.cfg) = true) : ErasesInside s (a.perform c rest s) := by
  obtain ⟨ha, hrest⟩ : a.eraseInside s.cfg = true ∧ rest.all (Act.eraseInside s.cfg) = true := by
    simpa only [List.all_cons, Bool.and_eq_true] using h
  have hcons {b : Act} (hb : b.eraseInside s.cfg = true) : (b :: rest).all (Act.eraseInside s.cfg) = true := by
    rw [List.all_cons, hb, hrest]; rfl
  cases a with
  | gate =>
    simp only [Act.perform, State.gateLength]
    split
    · exact ⟨rfl, ⟨_, rfl, rfl⟩, rfl⟩
    · split
      · exact erasesInside_silent rfl rfl rfl
      · exact erasesInside_silent rfl rfl hrest
  | feed i =>
    simp only [Act.perform, State.gateFeed]
    split
    · exact ⟨rfl, ⟨_, rfl, rfl⟩, rfl⟩
    · refine ⟨rfl, ⟨_, rfl, rfl⟩, ?_⟩
      split <;> exact hrest
  | compare acc =>
    simp only [Act.perform, State.gateCompare]
    split
    · exact ⟨rfl, ⟨_, rfl, rfl⟩, rfl⟩
    · refine erasesInside_silent rfl rfl ?_
      split
      · exact hrest
      · rfl
  | goTo a =>
    simp only [Act.perform, State.goToChecked]
    split <;> exact erasesInside_silent rfl rfl hrest
  | erase ps pc =>
    simp only [Act.perform, State.eraseChecked]
    split
    · exact erasesInside_silent rfl rfl hrest
    · exact erasesInside_silent rfl rfl (hcons (eraseCfg?_inside ‹_›))
  | eraseUnlock e => exact ⟨rfl, ⟨_, rfl, rfl⟩, hcons ha⟩
  | eraseRun e => exact ⟨rfl, ⟨_, rfl, by rw [List.all_cons]; exact Bool.and_eq_true_iff.mpr ⟨ha, rfl⟩⟩, hrest⟩
  | write a p =>
    simp only [Act.perform, State.writeChecked]
    split
    · split
      · exact ⟨rfl, ⟨_, rfl, rfl⟩, rfl⟩
      · exact erasesInside_silent rfl rfl hrest
    · exact erasesInside_silent rfl rfl hrest
  | progUnlock a p =>
    simp only [Act.perform, State.progUnlocked]
    split
    · exact ⟨rfl, ⟨_, rfl, rfl⟩, hcons (progNext_eraseInside _ _ _)⟩
    · exact ⟨rfl, ⟨_, rfl, rfl⟩, hrest⟩
  | progByte a b bs =>
    refine ⟨rfl, ⟨_, rfl, rfl⟩, hcons ?_⟩
    split
    · exact progNext_eraseInside _ _ _
    · rfl
  | handoff t => exact ⟨rfl, ⟨_, rfl, rfl⟩, rfl⟩
  | _ => exact ⟨rfl, ⟨_, rfl, rfl⟩, hrest⟩

/-- Every move inside a handler. -/
theorem advance_erasesInside {s : State} {c : Byte} {l : List Act} (hf : s.fsm = .exec c l)
    (h : l.all (Act.eraseInside s.cfg) = true) : ErasesInside s s.advance := by
  cases l with
  | nil =>
    rw [advance_nil hf]
    exact erasesInside_silent rfl rfl rfl
  | cons a rest =>
    rw [advance_cons hf]
    exact perform_erasesInside a c rest s h

/-- No handler starts with an erase pending. -/
theorem enter_erasesInside (s : State) (i : Instr) : ErasesInside s (s.enter i) :=
  erasesInside_silent rfl rfl (by cases i <;> rfl)

theorem exec_erasesInside {i : Instr} {s t : State} (h : exec i s = .next t) : ErasesInside s t := by
  rw [exec_eq] at h
  cases h
  refine finish_induction _ (enter_erasesInside s i) fun u c l hf hu => hu.trans (advance_erasesInside hf ?_)
  have hl := hu.pending
  rw [hf] at hl
  rw [hu.cfg]
  exact hl

/-- Settles O36: the events appended are those the handler issued. -/
theorem eraseStaysInsideDevice : Obligations.EraseStaysInsideDevice := by
  intro i s t evs first count st err h htrace hmem
  obtain ⟨evs', htrace', hinside⟩ := (exec_erasesInside h).issued
  obtain rfl : evs = evs' := List.append_cancel_left (htrace.symm.trans htrace')
  have he : EraseCfg.inside s.cfg (.pages first count) = true := List.all_eq_true.mp hinside _ hmem
  simpa only [EraseCfg.inside, Bool.and_eq_true, decide_eq_true_eq] using he

end Sys2Proof.Machine
end

section
/-! PROOF. The gate: when it passes, that the encoder's frames pass it, that under the default CRC a corrupted frame does not, and
what it leaves to the handler that begins with it. -/

namespace Sys2Proof

/-- Words read at the same offset are equal only where their four bytes are (R51). -/
theorem le32At_inj {rd rd' : Nat → Byte} {i k : Nat} (h : le32At rd i = le32At rd' i) (hk : k < 4) :
    rd (i + k) = rd' (i + k) := by
  apply BitVec.eq_of_getLsbD_eq
  intro b hb
  rw [← le32At_bit rd i k b hk hb, ← le32At_bit rd' i k b hk hb, h]

/-- A frame's length N is one byte (R86). -/
theorem naturalN_lt {i : Instr} (h : i.wellFormed = true) : i.naturalN < 256 := by
  cases i with
  | memWrite a p =>
    have hp : p.length ≤ 245 := of_decide_eq_true h
    simp only [Instr.naturalN]
    omega
  | _ => simp [Instr.naturalN]

/-- A frame covers all its bytes but the four of the trailer (R71, R112). -/
theorem coveredBytes_length (i : Instr) : (coveredBytes i.code i.args).length = i.naturalN - 3 := by
  rw [← args_length, coveredBytes, List.length_cons, List.length_cons]
  omega

end Sys2Proof

namespace Sys2Proof.Machine

/-- PASS: the frame is long enough and the two CRCs agree (R111, R116). -/
theorem gatePasses_iff (s : State) : s.gatePasses = true ↔ 5 ≤ s.frameLen ∧ s.gateCrc = s.hostCrc := by
  simp [State.gatePasses]

/-! ### Frames of the encoder -/

section
variable {s : State} {i : Instr} (hwf : i.wellFormed = true) (hbuf : ∀ k, s.buf.read k = (encode s.cfg i).getD k 0)
include hwf hbuf

theorem frameLen_of_encode : s.frameLen = i.naturalN := by
  rw [State.frameLen, hbuf, List.getD_eq_getElem?_getD, encode_head, Option.getD_some, BitVec.toNat_ofNat,
    Nat.mod_eq_of_lt (naturalN_lt hwf)]

theorem covered_of_encode : s.covered = coveredBytes i.code i.args := by
  rw [State.covered, State.coveredLen, frameLen_of_encode hwf hbuf, ← coveredBytes_length]
  refine bytesAt_eq _ 0 _ fun k hk => ?_
  rw [Nat.zero_add, hbuf]
  exact List.getD_append _ _ _ _ hk

/-- The trailer is the CRC of the covered bytes from CRC_INIT on (R86). -/
theorem hostCrc_of_encode : s.hostCrc = crcOf s.cfg.crcAlg s.cfg.crcInit (coveredBytes i.code i.args) := by
  rw [State.hostCrc, frameLen_of_encode hwf hbuf, ← coveredBytes_length]
  refine le32At_leBytes _ _ _ fun k hk => ?_
  rw [hbuf, encode, sealFrame, List.getD_append_right _ _ _ _ (Nat.le_add_right _ _), Nat.add_sub_cancel_left]

end

/-- Settles O9: the covered bytes are the encoder's, and the trailer is their CRC. -/
theorem encodedFramePassesGate : Obligations.EncodedFramePassesGate := by
  intro s i hwf hcrc hbuf
  have hlen : 5 ≤ s.frameLen := by
    rw [frameLen_of_encode hwf hbuf, ← args_length]
    omega
  refine (gatePasses_iff s).mpr ⟨hlen, ?_⟩
  rw [State.gateCrc, covered_of_encode hwf hbuf, hostCrc_of_encode hwf hbuf, hcrc]

/-! ### Corrupted frames -/

/-- Under the default CRC, lists that differ in one byte only have different CRCs. -/
theorem crcOf_byte_inj {acc : Word} {pre post : List Byte} {x y : Byte}
    (h : crcOf .stm32 acc (pre ++ x :: post) = crcOf .stm32 acc (pre ++ y :: post)) : x = y := by
  rw [crcOf_append, crcOf_append] at h
  have hword : crcWord x = crcWord y := stm32CrcStep_word_inj (crcOf_acc_inj h)
  simpa [crcWord] using congrArg (BitVec.setWidth 8) hword

/-- Under the default CRC, two frames that pass the gate from one accumulator and agree in all bytes but one of BUF[1 .. N]
agree in that one too. -/
theorem gatePasses_byte_inj {s s' : State} {k : Nat} (halg : s.cfg.crcAlg = .stm32) (hcfg : s'.cfg = s.cfg)
    (hacc : s'.crcAcc = s.crcAcc) (hp : s.gatePasses = true) (hp' : s'.gatePasses = true) (h1 : 1 ≤ k)
    (hk : k ≤ s.frameLen) (hother : ∀ j, j ≠ k → s'.buf.read j = s.buf.read j) : s'.buf.read k = s.buf.read k := by
  obtain ⟨hlen, hcrc⟩ := (gatePasses_iff s).mp hp
  obtain ⟨-, hcrc'⟩ := (gatePasses_iff s').mp hp'
  have hN : s'.frameLen = s.frameLen := by rw [State.frameLen, hother 0 (by omega), State.frameLen]
  simp only [State.gateCrc, State.covered, State.coveredLen, State.hostCrc, hcfg, hacc, hN, halg] at hcrc hcrc'
  by_cases hcov : k < s.frameLen - 3
  · have htrailer : le32At s'.buf.read (s.frameLen - 3) = le32At s.buf.read (s.frameLen - 3) := by
      simp only [le32At]
      rw [hother _ (by omega), hother _ (by omega), hother _ (by omega), hother _ (by omega)]
    have hpre : bytesAt s'.buf.read 0 k = bytesAt s.buf.read 0 k :=
      bytesAt_congr fun j _ hj => hother j (by omega)
    have hpost : bytesAt s'.buf.read (0 + k + 1) (s.frameLen - 3 - k - 1) =
        bytesAt s.buf.read (0 + k + 1) (s.frameLen - 3 - k - 1) :=
      bytesAt_congr fun j hj _ => hother j (by omega)
    rw [htrailer, ← hcrc, bytesAt_split _ 0 k _ hcov, bytesAt_split _ 0 k _ hcov, hpre, hpost] at hcrc'
    simpa only [Nat.zero_add] using crcOf_byte_inj hcrc'
  · have hcovered : bytesAt s'.buf.read 0 (s.frameLen - 3) = bytesAt s.buf.read 0 (s.frameLen - 3) :=
      bytesAt_congr fun j _ hj => hother j (by omega)
    rw [hcovered, hcrc] at hcrc'
    have hbyte := le32At_inj hcrc' (k := k - (s.frameLen - 3)) (by omega)
    rw [Nat.add_sub_cancel' (Nat.le_of_not_lt hcov)] at hbyte
    exact hbyte.symm

/-- Flipping a bit changes a byte. -/
theorem xor_twoPow_ne (x : Byte) {b : Nat} (hb : b < 8) : x ^^^ BitVec.twoPow 8 b ≠ x := by
  intro h
  simpa [hb] using congrArg (·.getLsbD b) h

/-- Settles O11: the corrupted frame differs from one that passes in a single byte. -/
theorem singleBitCorruptionFailsGate : Obligations.SingleBitCorruptionFailsGate := by
  intro s s' k b halg hcfg hacc hp h1 hk hb hbuf
  have hflip : s'.buf.read k = s.buf.read k ^^^ BitVec.twoPow 8 b := (hbuf k).trans (if_pos rfl)
  refine Bool.eq_false_iff.mpr fun hp' => xor_twoPow_ne (s.buf.read k) hb (hflip.symm.trans ?_)
  exact gatePasses_byte_inj halg hcfg hacc hp hp' h1 hk fun j hj => (hbuf j).trans (if_neg hj)

/-! ### The gate of a handler -/

/-- Settles O19: every handler's pseudocode begins with the gate, and the gate decides how it goes on. -/
theorem everyHandlerGatesFirst : Obligations.EveryHandlerGatesFirst := by
  intro i s hfit
  obtain ⟨rest, hprog, -⟩ := programOf_gate s.cfg i
  refine ⟨rest, hprog, fun hp => ?_, fun hp => ?_⟩
  · rw [exec_eq, State.enter, hprog, finish_gate_fail s _ _ hfit hp]
  · rw [exec_eq, State.enter, hprog, finish_gate_pass s _ _ hfit hp]

/-- Settles O21: the gate fails by its comparison, and its events are read off index by index. -/
theorem crcMismatchNacked : Obligations.CrcMismatchNacked := by
  intro i s hfit hlen running hne
  have hrunning : ∀ n, crcOf s.cfg.crcAlg s.crcAcc (bytesAt s.buf.read 0 n) = running n :=
    crcOf_bytesAt s.cfg.crcAlg s.crcAcc s.buf.read
  have hp : s.gatePasses = false := Bool.eq_false_iff.mpr fun hp =>
    hne ((hrunning _).symm.trans ((gatePasses_iff s).mp hp).2)
  obtain ⟨_, -, hfail, -⟩ := everyHandlerGatesFirst i s hfit
  rw [hfail hp, State.nacked, if_neg (Nat.not_lt.mpr hlen)]
  simp only [State.gated, State.gateEvents, State.covered, State.coveredLen, crcEvents_bytesAt, hrunning, State.send,
    State.emit, State.toIdle, List.append_assoc, List.cons_append, List.nil_append]

end Sys2Proof.Machine
end

section
/-! PROOF. The fetch cycle: the cycle start, and each receive by what the transport's stream answers it. -/

namespace Sys2Proof.Machine

/-! ### The cycle start and the model faults -/

/-- Settles O12: the cleared buffer lists nothing. -/
theorem cycleStartClearsBuffer : Obligations.CycleStartClearsBuffer :=
  fun _ hwf hfault hf => ⟨[], step_idle hwf hfault hf, Memory.read_nil⟩

/-- After a recorded fault there is no step (R265). -/
theorem step_fault {s : State} {r : Fault} (hwf : s.cfg.wf = true) (hfault : s.fault = some r) : step s = .fault r := by
  simp only [step, hwf, hfault, if_true]

/-- Settles O15: the capacity check comes before the receive, and the fault is recorded. -/
theorem overlongFrameFaults : Obligations.OverlongFrameFaults := by
  intro s hwf hfault hf hcap
  have hbody : s.receiveBody = s.raise .rxOverflow := if_pos hcap
  refine ⟨s.raise .rxOverflow, hbody ▸ step_rxBody hwf hfault hf, ?_, step_fault hwf ?_⟩
  · rw [State.raise, hfault, Option.getD_none]
  · rw [State.raise_fault, hfault, Option.getD_none]

/-- A failed receive: its event, one NACK, and back to S_IDLE (R102, R106). -/
theorem receiveFailed_eq (s : State) (n : Nat) :
    s.receiveFailed n = { s with fsm := .idle, trace := s.trace ++ [.rxReq n .fail, .tx 0xCD] } := by
  simp only [State.receiveFailed, State.emit, State.send, State.toIdle, List.append_assoc, List.cons_append,
    List.nil_append]

/-! ### The length receive -/

section
variable {s : State}

theorem receiveLength_of_bytes {bs : List Byte} {rest : List RxItem}
    (h : receive s.cfg.rxLenMayFail 1 s.rx = .bytes bs rest) :
    s.receiveLength = { s with
      fsm := .rxBody, rx := rest, buf := s.buf.writeList 0 bs, trace := s.trace ++ [.rxReq 1 (.ok bs)] } := by
  simp only [State.receiveLength, h, State.emit]

theorem receiveLength_of_failed {rest : List RxItem} (h : receive s.cfg.rxLenMayFail 1 s.rx = .failed rest) :
    s.receiveLength = { s with fsm := .idle, rx := rest, trace := s.trace ++ [.rxReq 1 .fail, .tx 0xCD] } := by
  simp only [State.receiveLength, h, receiveFailed_eq]

theorem receiveLength_of_waiting (h : receive s.cfg.rxLenMayFail 1 s.rx = .waiting) : s.receiveLength = s := by
  simp only [State.receiveLength, h]

/-- Without a timeout a length receive stores what came or waits: it does not fail (R31). -/
theorem receiveLength_no_timeout (hmay : s.cfg.rxLenMayFail = false) :
    ∃ evs, s.receiveLength.trace = s.trace ++ evs ∧ (∀ n, Event.rxReq n .fail ∉ evs) ∧ Event.tx 0xCD ∉ evs ∧
      (s.receiveLength.fsm = .rxBody ∨ s.receiveLength = s) := by
  cases hr : receive s.cfg.rxLenMayFail 1 s.rx with
  | bytes bs rest =>
    rw [receiveLength_of_bytes hr]
    exact ⟨_, rfl, by simp, by simp, .inl rfl⟩
  | failed rest => exact absurd (receive_failed hr) (by simp [hmay])
  | waiting =>
    rw [receiveLength_of_waiting hr]
    exact ⟨[], by simp, by simp, by simp, .inr rfl⟩

/-- A length byte that has come is stored in BUF[0], unchecked, and in no other place (R103). -/
theorem step_rxLen_byte {b : Byte} {rest : List RxItem} (hwf : s.cfg.wf = true) (hfault : s.fault = none)
    (hf : s.fsm = .rxLen) (hbuf : s.buf.wf = true) (h : receive s.cfg.rxLenMayFail 1 s.rx = .bytes [b] rest) :
    ∃ m : Memory, step s =
        .next { s with fsm := .rxBody, rx := rest, buf := m, trace := s.trace ++ [.rxReq 1 (.ok [b])] } ∧
      m.read 0 = b ∧ ∀ k, k ≠ 0 → m.read k = s.buf.read k := by
  refine ⟨s.buf.writeList 0 [b], ?_, ?_, fun k hk => ?_⟩
  · rw [step_rxLen hwf hfault hf, receiveLength_of_bytes h]
  · exact (Memory.read_write hbuf 0 b 0).trans (if_pos rfl)
  · exact (Memory.read_write hbuf 0 b k).trans (if_neg hk.symm)

end

/-- Settles O13: the byte is the next item of the stream. -/
theorem lengthByteStored : Obligations.LengthByteStored := by
  intro s b rest hwf hfault hf hbuf hrx
  exact step_rxLen_byte hwf hfault hf hbuf (hrx ▸ receive_bytes _ [b] rest)

/-- Settles O14: a silence ends the receive only where it has a timeout. -/
theorem lengthReceiveFails : Obligations.LengthReceiveFails := by
  intro s hwf hfault hf
  refine ⟨fun rest hmay hrx => ?_, fun hmay => ⟨?_, fun quiet b rest hbuf hquiet hrx => ?_, fun hnone => ?_⟩⟩
  · have hr : receive s.cfg.rxLenMayFail 1 s.rx = .failed rest := by
      rw [hmay, hrx]
      exact receive_silence (bs := []) Nat.one_pos rest
    rw [step_rxLen hwf hfault hf, receiveLength_of_failed hr]
  · obtain ⟨evs, h⟩ := receiveLength_no_timeout hmay
    exact ⟨_, evs, step_rxLen hwf hfault hf, h⟩
  · have hr : receive s.cfg.rxLenMayFail 1 s.rx = .bytes [b] rest := by
      have h := receive_through quiet b rest
      rw [hquiet] at h
      rw [hmay, hrx]
      exact h
    exact step_rxLen_byte hwf hfault hf hbuf hr
  · have hr : receive s.cfg.rxLenMayFail 1 s.rx = .waiting := by
      rw [hmay]
      exact receive_endless (by simp [hnone])
    rw [step_rxLen hwf hfault hf, receiveLength_of_waiting hr]

/-! ### The body receive -/

/-- Bytes written from BUF[1] on leave BUF[0] and the bytes past them. -/
theorem Memory.read_writeList_outside {m : Memory} (h : m.wf = true) {bs : List Byte} {n k : Nat} (hlen : bs.length = n)
    (hk : k = 0 ∨ n < k) : (m.writeList 1 bs).read k = m.read k := by
  rw [Memory.read_writeList h, if_neg (by omega)]

/-- Bytes written from BUF[1] on are read there (R105). -/
theorem Memory.read_writeList_inside {m : Memory} (h : m.wf = true) {bs : List Byte} {n k : Nat} (hlen : bs.length = n)
    (h1 : 1 ≤ k) (hk : k ≤ n) : bs[k - 1]? = some ((m.writeList 1 bs).read k) := by
  have hlt : k - 1 < bs.length := by omega
  rw [Memory.read_writeList h, if_pos (by omega), List.getD_eq_getElem _ _ hlt, List.getElem?_eq_getElem hlt]

section
variable {s : State} (hfit : s.frameFits)
include hfit

section
variable (h0 : s.frameLen ≠ 0)
include h0

/-- Where a frame of N at least 1 fits, the stream's answer decides. -/
theorem receiveBody_of_bytes {bs : List Byte} {rest : List RxItem}
    (h : receive s.cfg.rxBodyMayFail s.frameLen s.rx = .bytes bs rest) :
    s.receiveBody = { s with
      fsm := .dispatch, rx := rest, buf := s.buf.writeList 1 bs
      trace := s.trace ++ [.rxReq s.frameLen (.ok bs)] } := by
  simp only [State.receiveBody, if_neg (Nat.not_lt.mpr hfit), if_neg h0, h, State.bodyStored, State.emit]

theorem receiveBody_of_failed {rest : List RxItem} (h : receive s.cfg.rxBodyMayFail s.frameLen s.rx = .failed rest) :
    s.receiveBody = { s with
      fsm := .idle, rx := rest, buf := s.buf.writeList 1 (freeBytes s.draws 1 s.frameLen), draws := s.draws + 1
      trace := s.trace ++ [.rxReq s.frameLen .fail, .tx 0xCD] } := by
  simp only [State.receiveBody, if_neg (Nat.not_lt.mpr hfit), if_neg h0, h, State.bodyFailed, receiveFailed_eq]

theorem receiveBody_of_waiting (h : receive s.cfg.rxBodyMayFail s.frameLen s.rx = .waiting) : s.receiveBody = s := by
  simp only [State.receiveBody, if_neg (Nat.not_lt.mpr hfit), if_neg h0, h]

/-- Without a timeout a body receive of N at least 1 stores what came or waits: it does not fail (R31). -/
theorem receiveBody_no_timeout (hmay : s.cfg.rxBodyMayFail = false) :
    ∃ evs, s.receiveBody.trace = s.trace ++ evs ∧ (∀ n, Event.rxReq n .fail ∉ evs) ∧ Event.tx 0xCD ∉ evs ∧
      (s.receiveBody.fsm = .dispatch ∨ s.receiveBody = s) := by
  cases hr : receive s.cfg.rxBodyMayFail s.frameLen s.rx with
  | bytes bs rest =>
    rw [receiveBody_of_bytes hfit h0 hr]
    exact ⟨_, rfl, by simp, by simp, .inl rfl⟩
  | failed rest => exact absurd (receive_failed hr) (by simp [hmay])
  | waiting =>
    rw [receiveBody_of_waiting hfit h0 hr]
    exact ⟨[], by simp, by simp, by simp, .inr rfl⟩

/-- A body that has come is stored in BUF[1 .. N] and in no other place, and dispatch follows (R105, R107). -/
theorem step_rxBody_bytes {bs : List Byte} {rest : List RxItem} (hwf : s.cfg.wf = true) (hfault : s.fault = none)
    (hf : s.fsm = .rxBody) (hbuf : s.buf.wf = true)
    (h : receive s.cfg.rxBodyMayFail s.frameLen s.rx = .bytes bs rest) :
    ∃ m : Memory, step s =
        .next { s with
          fsm := .dispatch, rx := rest, buf := m, trace := s.trace ++ [.rxReq s.frameLen (.ok bs)] } ∧
      (∀ k, 1 ≤ k → k ≤ s.frameLen → bs[k - 1]? = some (m.read k)) ∧
      ∀ k, (k = 0 ∨ s.frameLen < k) → m.read k = s.buf.read k := by
  have hlen : bs.length = s.frameLen := receive_length h
  refine ⟨s.buf.writeList 1 bs, ?_, fun k => Memory.read_writeList_inside hbuf hlen,
    fun k => Memory.read_writeList_outside hbuf hlen⟩
  rw [step_rxBody hwf hfault hf, receiveBody_of_bytes hfit h0 h]

end

/-- RX(0), answered Fail (R31, D5). -/
theorem receiveBody_nothing_failed (h0 : s.frameLen = 0) (hfail : s.rxZeroAnswer = false) :
    s.receiveBody = { s with
      fsm := .idle
      trace := s.trace ++ [.rxReq 0 .fail, .tx 0xCD]
      oracle := { s.oracle with rxZero := s.oracle.rxZero.tail }
      draws := s.draws + 1 } := by
  rw [State.receiveBody, if_neg (Nat.not_lt.mpr hfit), if_pos h0, State.receiveNothing,
    if_neg (Bool.eq_false_iff.mp hfail), receiveFailed_eq]

end

/-- Settles O16: the bytes are the next items of the stream; with N = 0 there is none to store. -/
theorem bodyStored : Obligations.BodyStored := by
  refine fun s hwf hfault hf hbuf hfit => ⟨fun bs rest h0 hlen hrx => ?_, fun h0 hok => ?_⟩
  · have hr : receive s.cfg.rxBodyMayFail s.frameLen s.rx = .bytes bs rest := by rw [hrx, ← hlen, receive_bytes]
    exact step_rxBody_bytes hfit h0 hwf hfault hf hbuf hr
  · rw [step_rxBody hwf hfault hf, receiveBody_nothing hfit h0 hok]
    rfl

/-- Settles O17: a silence ends the receive only where it has a timeout, and RX(0) fails by its own answer. -/
theorem bodyReceiveFails : Obligations.BodyReceiveFails := by
  intro s hwf hfault hf hbuf hfit
  refine ⟨fun bs rest hlt hmay hrx => ?_, fun h0 hfail => ?_,
    fun h0 hmay => ⟨?_, fun pre b rest hlen hrx => ?_, fun hlt => ?_⟩⟩
  · have hr : receive s.cfg.rxBodyMayFail s.frameLen s.rx = .failed rest := by rw [hmay, hrx, receive_silence hlt]
    refine ⟨_, s.draws + 1, ?_, fun k => Memory.read_writeList_outside hbuf (freeBytes_length s.draws 1 s.frameLen)⟩
    rw [step_rxBody hwf hfault hf, receiveBody_of_failed hfit (Nat.ne_zero_of_lt hlt) hr]
  · rw [step_rxBody hwf hfault hf, receiveBody_nothing_failed hfit h0 hfail]
  · obtain ⟨evs, h⟩ := receiveBody_no_timeout hfit h0 hmay
    exact ⟨_, evs, step_rxBody hwf hfault hf, h⟩
  · have hr : receive s.cfg.rxBodyMayFail s.frameLen s.rx = .bytes (bytesOf pre ++ [b]) rest := by
      rw [hmay, hrx, ← hlen, receive_through]
    exact step_rxBody_bytes hfit h0 hwf hfault hf hbuf hr
  · have hr : receive s.cfg.rxBodyMayFail s.frameLen s.rx = .waiting := by rw [hmay, receive_endless hlt]
    rw [step_rxBody hwf hfault hf, receiveBody_of_waiting hfit h0 hr]

end Sys2Proof.Machine
end

section
/-! PROOF. Dispatch: which handler a step runs, the identity commands, that every handler ends, and that running one at once is
running it one action at a time. -/

namespace Sys2Proof.Machine

/-! ### From S_DISPATCH -/

section
variable {s : State} (hwf : s.cfg.wf = true) (hfault : s.fault = none) (hf : s.fsm = .dispatch)
include hwf hfault hf

/-- A known code: the step runs its handler, the tick enters it (R130). -/
theorem dispatch_known {i : Instr} (hi : s.instr = .ok i) : step s = exec i s ∧ tick s = .next (s.enter i) := by
  simp only [step, tick, hwf, hfault, hf, hi, if_true, and_self]

/-- An unknown code: step and tick follow the policy (R131, R132). -/
theorem dispatch_unknown (h : s.buf.read 1 ∉ helpTable) :
    step s = .next s.unknownCode ∧ tick s = .next s.unknownCode := by
  have hi : s.instr = .error (.unknownCode (s.buf.read 1)) := decodeFrom_unknown h
  simp only [step, tick, hwf, hfault, hf, hi, if_true, and_self]

end

/-- A byte 1 that is one of the twelve codes decodes (R77). -/
theorem decodeFrom_known {rd : Nat → Byte} (h : rd 1 ∈ helpTable) : ∃ i, decodeFrom rd = .ok i := by
  cases hd : decodeFrom rd with
  | ok i => exact ⟨i, rfl⟩
  | error e => exact absurd h (decodeFrom_error hd).1

/-- Settles O1: the two answers of the decoder. -/
theorem stepRunsDecodedInstruction : Obligations.StepRunsDecodedInstruction := by
  refine fun s hwf hfault hf => ⟨fun i hi => ?_, decodeFrom_known, dispatch_unknown hwf hfault hf⟩
  have hcode : i.code = s.buf.read 1 := decodeFrom_code hi
  obtain ⟨hstep, htick⟩ := dispatch_known hwf hfault hf hi
  exact ⟨hcode, hstep, hcode ▸ htick⟩

/-- Settles O2: under SILENT the unknown-code rule is only the return. -/
theorem unknownCodeSilent : Obligations.UnknownCodeSilent := by
  intro s hwf hfault hf hpolicy h
  have hsilent : s.unknownCode = s.toIdle := by simp only [State.unknownCode, hpolicy]
  rw [(dispatch_unknown hwf hfault hf h).1, hsilent, State.toIdle]

/-! ### The identity commands -/

/-- Settles O22: behind the gate the handler only sends, the version bytes after the ACK and their count. -/
theorem getVersionReplies : Obligations.GetVersionReplies :=
  fun s hfit => ⟨runHandler_sends s 0x10 _ hfit, runHandler_fail s 0x10 _ hfit⟩

/-- Settles O23: behind the gate the handler only sends, the reply table after the ACK and its length. -/
theorem getHelpReplies : Obligations.GetHelpReplies :=
  fun s hfit => ⟨runHandler_sends s 0x11 (Config.ack :: 0x0C :: helpTable) hfit, runHandler_fail s 0x11 _ hfit⟩

/-- The mask keeps the low byte of the register whole (R135). -/
theorem chipId_low (w : Word) : (chipId w).extractLsb' 0 8 = w.extractLsb' 0 8 := by
  have hmask : Config.idMask.extractLsb' 0 8 = BitVec.allOnes 8 := by decide
  rw [chipId, BitVec.extractLsb'_and, hmask, BitVec.and_allOnes]

/-- Of the register's second byte the mask keeps the low four bits (R135). -/
theorem chipId_high (w : Word) : (chipId w).extractLsb' 8 8 = (w.extractLsb' 8 4).zeroExtend 8 := by
  have hmask : ∀ j < 8, Config.idMask.getLsbD (8 + j) = decide (j < 4) := by decide
  ext j hj
  simp only [chipId, BitVec.getElem_extractLsb', BitVec.getLsbD_and, hmask j hj, BitVec.getElem_setWidth,
    BitVec.getLsbD_extractLsb', Bool.and_comm]

/-- ID_READ, and then the two identifier bytes (R135, R52). -/
theorem finish_readId (s : State) (c : Byte) :
    (s.goOn c [.readId]).finish =
      (s.idRead.sent [s.idAnswer.extractLsb' 0 8, (s.idAnswer.extractLsb' 8 4).zeroExtend 8]).toIdle := by
  rw [finish_goOn_cons, ← chipId_low, ← chipId_high]
  exact finish_sends_last s.idRead c [(chipId s.idAnswer).extractLsb' 0 8, (chipId s.idAnswer).extractLsb' 8 8]

/-- Settles O24: behind the gate the handler only reads the register and sends its two bytes. -/
theorem getChipIdReplies : Obligations.GetChipIdReplies := by
  refine fun s hfit => ⟨fun hp => ?_, runHandler_fail s 0x12 _ hfit⟩
  have h := runHandler_pass s 0x12 [.readId] hfit hp
  rw [finish_readId, State.sent, State.idRead_trace, List.append_assoc] at h
  exact h

/-! ### Every handler ends -/

/-- A GoToAddr whose address is valid: the only instruction that may hand off (R203). -/
def MayHandOff (cfg : Cfg) (i : Instr) : Prop :=
  ∃ a, i = .goToAddr a ∧ validate cfg a = true

/-- What an action left in the handler of `i` says of `i`: GoToAddr's check is of its own address, and a handoff is left only
by a check that was passed. -/
def Act.handoffOk (cfg : Cfg) (i : Instr) : Act → Prop
  | .goTo a => i = .goToAddr a
  | .handoff _ => MayHandOff cfg i
  | _ => True

/-- What a state reached in the handler of `i` says of `i`, inside the handler and at its end. -/
def State.endOk (cfg : Cfg) (i : Instr) (s : State) : Prop :=
  match s.fsm with
  | .exec _ todo => ∀ a ∈ todo, a.handoffOk cfg i
  | .handoff => MayHandOff cfg i
  | .fault => ∃ r, s.fault = some r
  | _ => True

/-- The program loop leaves no handoff. -/
theorem progNext_handoffOk (cfg : Cfg) (i : Instr) (a : Word) (bs : List Byte) : (progNext a bs).handoffOk cfg i := by
  cases bs <;> trivial

/-- Every action: what it puts in front of the actions left needs no GoToAddr, except the handoff after a passed check. -/
theorem perform_endOk {i : Instr} (a : Act) (c : Byte) (rest : List Act) {s : State}
    (h : ∀ b ∈ a :: rest, b.handoffOk s.cfg i) : (a.perform c rest s).endOk s.cfg i := by
  obtain ⟨ha, hrest⟩ := List.forall_mem_cons.mp h
  have hcons {b : Act} (hb : b.handoffOk s.cfg i) : ∀ b' ∈ b :: rest, b'.handoffOk s.cfg i :=
    List.forall_mem_cons.mpr ⟨hb, hrest⟩
  have hnack : ∀ b ∈ [Act.tx Config.nack], b.handoffOk s.cfg i := List.forall_mem_singleton.mpr trivial
  cases a with
  | gate =>
    simp only [Act.perform, State.gateLength]
    split
    · exact ⟨_, rfl⟩
    · split
      · exact hnack
      · exact hcons trivial
  | feed k =>
    simp only [Act.perform, State.gateFeed]
    split
    · exact ⟨_, rfl⟩
    · split <;> exact hcons trivial
  | compare acc =>
    simp only [Act.perform, State.gateCompare]
    split
    · exact ⟨_, rfl⟩
    · split
      · exact hrest
      · exact hnack
  | tx b => exact hrest
  | readId => exact List.forall_mem_cons.mpr ⟨trivial, hcons trivial⟩
  | goTo a =>
    simp only [Act.perform, State.goToChecked]
    split
    · exact List.forall_mem_cons.mpr ⟨trivial, hcons ⟨a, ha, ‹_›⟩⟩
    · exact hcons trivial
  | handoff t => exact ha
  | erase ps pc =>
    simp only [Act.perform, State.eraseChecked]
    split <;> exact hcons trivial
  | write a p =>
    simp only [Act.perform, State.writeChecked]
    split
    · split
      · exact ⟨_, rfl⟩
      · exact hcons trivial
    · exact hcons trivial
  | progUnlock a p =>
    simp only [Act.perform, State.progUnlocked]
    split
    · exact hcons (progNext_handoffOk _ i a p)
    · exact hcons trivial
  | progByte a b bs =>
    refine hcons ?_
    split
    · exact progNext_handoffOk _ i (a + 1) bs
    · trivial
  | _ => exact hcons trivial

theorem sends_handoffOk (cfg : Cfg) (i : Instr) (bs : List Byte) : ∀ a ∈ sends bs, a.handoffOk cfg i :=
  List.forall_mem_map.mpr fun _ _ => trivial

/-- A handler starts with no handoff left, and with GoToAddr's check only in GoToAddr. -/
theorem enter_endOk (s : State) (i : Instr) : (s.enter i).endOk s.cfg i := by
  have hack {last : Act} (h : last.handoffOk s.cfg i) :
      ∀ a ∈ Act.gate :: (sends [Config.ack, 0x01] ++ [last]), a.handoffOk s.cfg i :=
    List.forall_mem_cons.mpr
      ⟨trivial, List.forall_mem_append.mpr ⟨sends_handoffOk _ _ _, List.forall_mem_singleton.mpr h⟩⟩
  cases i with
  | getChipId => exact List.forall_mem_cons.mpr ⟨trivial, List.forall_mem_singleton.mpr trivial⟩
  | goToAddr a => exact hack (last := .goTo a) rfl
  | flashErase ps pc => exact hack (last := .erase ps pc) trivial
  | memWrite a p => exact hack (last := .write a p) trivial
  | enRWProtect => exact hack (last := .readOpt) trivial
  | _ => exact List.forall_mem_cons.mpr ⟨trivial, sends_handoffOk _ _ _⟩

/-- Every move inside the handler. -/
theorem advance_endOk {s : State} {c : Byte} {l : List Act} {i : Instr} (hf : s.fsm = .exec c l)
    (h : s.endOk s.cfg i) : s.advance.cfg = s.cfg ∧ s.advance.endOk s.cfg i := by
  cases l with
  | nil =>
    rw [advance_nil hf]
    exact ⟨rfl, trivial⟩
  | cons a rest =>
    rw [advance_cons hf]
    have hl : ∀ b ∈ a :: rest, b.handoffOk s.cfg i := by simpa only [State.endOk, hf] using h
    exact ⟨(perform_frame a c rest s).1, perform_endOk a c rest hl⟩

/-- The whole handler. -/
theorem finish_enter_endOk (s : State) (i : Instr) : (s.enter i).finish.endOk s.cfg i := by
  refine (finish_induction (P := fun u => u.cfg = s.cfg ∧ u.endOk s.cfg i) (s.enter i) ⟨rfl, enter_endOk s i⟩ ?_).2
  rintro u c l hf ⟨hcfg, h⟩
  rw [← hcfg] at h ⊢
  exact advance_endOk hf h

/-- Settles O47: a handler ends in one of the three control states, and its end says for which instruction it is. -/
theorem handlersEnd : Obligations.HandlersEnd := by
  intro i s
  have hend := finish_enter_endOk s i
  refine ⟨(s.enter i).finish, exec_eq i s, ?_⟩
  obtain hf | hf | hf := finish_fsm (s := s.enter i) rfl
  · exact .inl hf
  · exact .inr (.inl ⟨hf, by simpa only [State.endOk, hf, MayHandOff] using hend⟩)
  · exact .inr (.inr ⟨hf, by simpa only [State.endOk, hf] using hend⟩)

/-! ### Ticks -/

/-- The only way an action touches the fault record is that it raises BUF_OOB (R32). -/
theorem perform_raises (a : Act) (c : Byte) (rest : List Act) (s : State) :
    (a.perform c rest s).fault = s.fault ∨ a.perform c rest s = s.raise .bufOob := by
  cases a with
  | gate =>
    simp only [Act.perform, State.gateLength]
    split
    · exact .inr rfl
    · split <;> exact .inl rfl
  | feed k =>
    simp only [Act.perform, State.gateFeed]
    split
    · exact .inr rfl
    · exact .inl rfl
  | compare acc =>
    simp only [Act.perform, State.gateCompare]
    split
    · exact .inr rfl
    · exact .inl rfl
  | erase ps pc =>
    simp only [Act.perform, State.eraseChecked]
    split <;> exact .inl rfl
  | write a p =>
    simp only [Act.perform, State.writeChecked]
    split
    · split
      · exact .inr rfl
      · exact .inl rfl
    · exact .inl rfl
  | progUnlock a p =>
    simp only [Act.perform, State.progUnlocked]
    split <;> exact .inl rfl
  | _ => exact .inl rfl

/-- The only way a move touches the fault record is that it raises a fault (R32). -/
theorem moves_raises {s t : State} (h : Moves s t) : t.fault = s.fault ∨ ∃ r, t = s.raise r := by
  cases h with
  | cycleStart hf => exact .inl rfl
  | length hf =>
    obtain ⟨b, rest, e⟩ | ⟨rest, e⟩ | e := receiveLength_cases s
    · exact .inl (by rw [e]; rfl)
    · exact .inl (by rw [e]; rfl)
    · exact .inl (by rw [e])
  | body hf =>
    obtain ⟨-, e⟩ | ⟨-, ⟨_, _, _, bs, -, e⟩ | ⟨_, _, _, bs, -, e⟩ | e⟩ := receiveBody_cases s
    · exact .inr ⟨_, e⟩
    · exact .inl (by rw [e]; rfl)
    · exact .inl (by rw [e]; rfl)
    · exact .inl (by rw [e])
  | enter hf hi => exact .inl rfl
  | unknown hf he =>
    obtain ⟨evs, e⟩ := unknownCode_eq s
    exact .inl (by rw [e])
  | @advance c l hf =>
    cases l with
    | nil => exact .inl (by rw [advance_nil hf]; rfl)
    | cons a rest =>
      rw [advance_cons hf]
      exact (perform_raises a c rest s).imp_right fun e => ⟨_, e⟩

/-- A tick keeps the configuration allowed, and leads into a handler, or on in one, only without a fault. -/
theorem tick_exec_quiet {s t : State} {c : Byte} {l : List Act} (h : tick s = .next t) (hf : t.fsm = .exec c l) :
    t.cfg.wf = true ∧ t.fault = none := by
  obtain ⟨hwf, hfault, hmove⟩ := tick_moves h
  refine ⟨(moves_frame hmove).1 ▸ hwf, ?_⟩
  obtain e | ⟨r, rfl⟩ := moves_raises hmove
  · exact e.trans hfault
  · cases hf

/-- Inside a handler a tick is one move of it. -/
theorem tick_exec {s : State} {c : Byte} {l : List Act} (hwf : s.cfg.wf = true) (hfault : s.fault = none)
    (hf : s.fsm = .exec c l) : tick s = .next s.advance := by
  simp only [tick, hwf, hfault, hf, if_true]

/-- One tick more at the end. -/
theorem ticks_succ {n : Nat} {s u : State} (h : ticks n s = .next u) : ticks (n + 1) s = tick u := by
  induction n generalizing s with
  | zero =>
    cases h
    simp only [ticks]
    cases tick u <;> rfl
  | succ n ih =>
    rw [ticks] at h ⊢
    cases hs : tick s with
    | next v =>
      rw [hs] at h
      exact ih h
    | fault r => simp [hs] at h
    | refused r => simp [hs] at h

/-- Settles O52: after the tick a step begins with, each move inside the handler is one tick more. -/
theorem stepIsFinitelyManyTicks : Obligations.StepIsFinitelyManyTicks := by
  intro s t h
  obtain ⟨u, hu, rfl⟩ := step_tick_finish h
  have hreach : ∃ n v, ticks n s = .next v ∧ tick v = .next u.finish := by
    refine finish_induction (P := fun w => ∃ n v, ticks n s = .next v ∧ tick v = .next w) u ⟨0, s, rfl, hu⟩ ?_
    rintro w c l hf ⟨n, v, hn, hv⟩
    obtain ⟨hwf, hfault⟩ := tick_exec_quiet hv hf
    exact ⟨n + 1, w, (ticks_succ hn).trans hv, tick_exec hwf hfault hf⟩
  obtain ⟨n, v, hn, hv⟩ := hreach
  exact ⟨n + 1, (ticks_succ hn).trans hv⟩

end Sys2Proof.Machine
end

section
/-! PROOF. The flash sequencer: FlashErase and MemWrite behind their gate and ACK, PROGRAM by the answers it gets, and which
handlers touch the flash at all. -/

namespace Sys2Proof.Machine

/-- The state behind a gate that passed and the ACK `TX(0xAB, 0x01)`, where both flash commands go on (R160, R170). -/
def State.acked (s : State) : State :=
  s.gated.sent [Config.ack, 0x01]

theorem State.acked_cfg (s : State) : s.acked.cfg = s.cfg := rfl

theorem State.acked_trace (s : State) : s.acked.trace = s.trace ++ s.gateEvents ++ [.tx 0xAB, .tx 0x01] := rfl

/-- One more byte after the ACK, and the return: the handler only replied. -/
theorem acked_send_toIdle (s : State) (b : Byte) : (s.acked.send b).toIdle = s.replied [0xAB, 0x01, b] := by
  simp only [State.acked, State.replied, State.sent, State.send, State.emit, List.append_assoc]
  rfl

/-! ### FlashErase -/

section
variable {s : State} {ps pc : Byte} (hfit : s.frameFits) (hp : s.gatePasses = true)
include hfit hp

theorem exec_flashErase_acked : exec (.flashErase ps pc) s = .next (s.acked.goOn 0x15 [.erase ps pc]).finish :=
  runHandler_ack s 0x15 [Config.ack, 0x01] [.erase ps pc] hfit hp

/-- A failed check: the status byte is the only answer after the ACK (R162, R164). -/
theorem exec_flashErase_invalid (h : eraseCfg? s.cfg ps pc = none) :
    exec (.flashErase ps pc) s = .next (s.replied [0xAB, 0x01, s.cfg.stEraseInvalid]) := by
  rw [exec_flashErase_acked hfit hp, finish_erase_invalid (s := s.acked) _ _ h, finish_goOn_nil, acked_send_toIdle]
  rfl

/-- The checks passed: unlock, erase, lock, each with the next answer of its kind, and the status byte (R166, R167). -/
theorem exec_flashErase_valid {e : EraseCfg} (h : eraseCfg? s.cfg ps pc = some e) :
    ∃ t u st err l, exec (.flashErase ps pc) s = .next t ∧
      t = { s with
        fsm := .idle
        crcAcc := s.cfg.crcInit
        flOpen := false
        trace := s.trace ++ s.gateEvents ++
          [.tx 0xAB, .tx 0x01, .flUnlock u, .flErase e st err, .flLock l, .tx (eraseStatus s.cfg err)]
        oracle := { s.oracle with
          unlock := s.oracle.unlock.tail, erase := s.oracle.erase.tail, lock := s.oracle.lock.tail }
        draws := s.draws + 3 } ∧
      u = s.unlockAnswer ∧ (st, err) = s.oracle.erase.headD (Config.freeErase (s.draws + 1)) ∧
      l = s.oracle.lock.headD (Config.freeLock (s.draws + 2)) := by
  refine ⟨_, _, _, _, _, ?_, rfl, rfl, rfl, rfl⟩
  rw [exec_flashErase_acked hfit hp, finish_erase_valid (s := s.acked) _ _ h, finish_goOn_nil]
  simp only [State.erased, State.send, State.emit, State.flLock, State.flErase, State.flUnlock, State.acked_trace,
    List.append_assoc]
  rfl

end

theorem eraseCfg?_invalid {cfg : Cfg} {ps pc : Byte}
    (h : cfg.maxPages < pc.toNat ∨ (ps ≠ 0xFF ∧ cfg.maxPages ≤ ps.toNat)) : eraseCfg? cfg ps pc = none := by
  unfold eraseCfg?
  split
  · rfl
  · obtain ⟨hmass, hstart⟩ := h.resolve_left ‹_›
    rw [if_neg hmass, if_pos hstart]

theorem eraseCfg?_mass {cfg : Cfg} {pc : Byte} (h : pc.toNat ≤ cfg.maxPages) : eraseCfg? cfg 0xFF pc = some .mass := by
  rw [eraseCfg?, if_neg (Nat.not_lt.mpr h), if_pos rfl]

theorem eraseCfg?_pages {cfg : Cfg} {ps pc : Byte} (h : pc.toNat ≤ cfg.maxPages) (hmass : ps ≠ 0xFF)
    (hstart : ps.toNat < cfg.maxPages) :
    eraseCfg? cfg ps pc = some (.pages ps.toNat (min pc.toNat (cfg.maxPages - ps.toNat))) := by
  rw [eraseCfg?, if_neg (Nat.not_lt.mpr h), if_neg hmass, if_neg (Nat.not_le.mpr hstart)]

/-- Settles O33: one of ERASE's checks fails. -/
theorem flashEraseInvalid : Obligations.FlashEraseInvalid :=
  fun _ _ _ hfit hp h => exec_flashErase_invalid hfit hp (eraseCfg?_invalid h)

/-- Settles O34: the sentinel passes the checks as a mass erase. -/
theorem massEraseRuns : Obligations.MassEraseRuns :=
  fun _ _ hfit hp h => exec_flashErase_valid hfit hp (eraseCfg?_mass h)

/-- Settles O35: the checks pass with the clamped count. -/
theorem pageEraseRuns : Obligations.PageEraseRuns :=
  fun _ _ _ hfit hp h hmass hstart => exec_flashErase_valid hfit hp (eraseCfg?_pages h hmass hstart)

/-! ### PROGRAM -/

section
variable {s u : State} {a : Word} {p : List Byte}

/-- A failed unlock ends PROGRAM (R172). -/
theorem program_unlock_err (h : s.unlockAnswer ≠ .ok) :
    s.program a p = ({ s.flUnlock with flOpen := false }, s.cfg.stWriteFail) :=
  if_neg h

/-- Every byte was programmed: the lock's status decides (R175). -/
theorem program_done (h : s.unlockAnswer = .ok) (hb : s.flUnlock.programBytes a p = (u, true)) :
    s.program a p = (u.flLock, writeStatus s.cfg u.lockAnswer) := by
  rw [State.program, if_pos h, hb]
  rfl

/-- A byte failed: the lock's status is ignored (R174). -/
theorem program_stopped (h : s.unlockAnswer = .ok) (hb : s.flUnlock.programBytes a p = (u, false)) :
    s.program a p = (u.flLock, s.cfg.stWriteFail) := by
  rw [State.program, if_pos h, hb]

end

/-- The actions of PROGRAM do what its pseudocode says, and its status is sent (R171). -/
theorem finish_progUnlock (s : State) (c : Byte) (a : Word) (p : List Byte) :
    (s.goOn c [.progUnlock a p]).finish = ((s.program a p).1.send (s.program a p).2).toIdle := by
  by_cases hu : s.unlockAnswer = .ok
  · rw [finish_progUnlock_ok c [] hu, finish_progNext]
    have hcfg := programBytes_cfg s.flUnlock a p
    cases hb : s.flUnlock.programBytes a p with
    | mk u done =>
      replace hcfg : u.cfg = s.cfg := by rw [hb] at hcfg; exact hcfg
      cases done with
      | true => simp only [program_done hu hb, finish_goOn_nil, hcfg]
      | false => simp only [program_stopped hu hb, finish_goOn_nil, hcfg]
  · rw [finish_progUnlock_err c [] hu, program_unlock_err hu, finish_goOn_nil]

/-- After bytes that were all programmed the loop goes on with the bytes that follow (R173). -/
theorem programBytes_append {s u : State} {a : Word} {p : List Byte} (h : s.programBytes a p = (u, true))
    (q : List Byte) : s.programBytes a (p ++ q) = u.programBytes (BitVec.ofNat 32 (a.toNat + p.length)) q := by
  induction p generalizing s a with
  | nil =>
    cases h
    simp
  | cons b p ih =>
    rw [List.cons_append, State.programBytes]
    rw [State.programBytes] at h
    by_cases hb : s.progAnswer = .ok
    · rw [if_pos hb] at h ⊢
      rw [ih h, nextAddress, List.length_cons]
    · simp [if_neg hb] at h

/-- The loop stops at a byte that fails (R174). -/
theorem programBytes_err {s : State} {a : Word} {b : Byte} {bs : List Byte} (h : s.progAnswer = .err) :
    s.programBytes a (b :: bs) = (s.flProg a b, false) := by
  rw [State.programBytes, if_neg (by simp [h])]

/-- The loop stops at the first byte that fails, and that byte is the last one requested (R174). -/
theorem programBytes_stops {s : State} {a : Word} {pre : List Byte} (b : Byte) (post : List Byte)
    (hpre : ∀ j, j < pre.length → s.oracle.prog.getD j (Config.freeProg (s.draws + j)) = .ok)
    (hb : s.oracle.prog.getD pre.length (Config.freeProg (s.draws + pre.length)) = .err) :
    s.programBytes a (pre ++ b :: post) =
      ({ s with
          trace := s.trace ++ progEvents a pre ++ [.flProg (BitVec.ofNat 32 (a.toNat + pre.length)) b .err]
          oracle := { s.oracle with prog := s.oracle.prog.drop (pre.length + 1) }
          draws := s.draws + pre.length + 1 }, false) := by
  have hanswer : (s.oracle.prog.drop pre.length).headD (Config.freeProg (s.draws + pre.length)) = .err := by
    rw [← hb]
    simp [List.headD_eq_head?_getD]
  rw [programBytes_append (programBytes_ok s a pre hpre), programBytes_err (by exact hanswer)]
  simp only [State.flProg, State.progAnswer, hanswer, List.tail_drop]

/-- The loop's events: FL_PROGs only, all of them good exactly when every byte was programmed (R173, R174). -/
theorem programBytes_events (s : State) (a : Word) (p : List Byte) :
    ∃ progs, (s.programBytes a p).1.trace = s.trace ++ progs ∧ progs.all Event.isProg = true ∧
      ((s.programBytes a p).2 = true ↔ progs.countP Event.isGoodProg = p.length) := by
  induction p generalizing s a with
  | nil => exact ⟨[], (List.append_nil _).symm, rfl, by simp [State.programBytes]⟩
  | cons b p ih =>
    cases hb : s.progAnswer with
    | ok =>
      obtain ⟨progs, htrace, hprog, hcount⟩ := ih (s.flProg a b) (a + 1)
      rw [State.programBytes, if_pos hb]
      refine ⟨.flProg a b .ok :: progs, ?_, by simpa [Event.isProg] using hprog, ?_⟩
      · rw [htrace, State.flProg_trace, hb, List.append_assoc]
        rfl
      · rw [hcount, List.countP_cons_of_pos rfl, List.length_cons, Nat.add_right_cancel_iff]
    | err =>
      rw [programBytes_err hb]
      refine ⟨[.flProg a b .err], by rw [State.flProg_trace, hb], rfl, ?_⟩
      simp [Event.isGoodProg]

/-! ### MemWrite -/

section
variable {s : State} {a : Word} {p : List Byte} (hfit : s.frameFits) (hp : s.gatePasses = true)
include hfit hp

theorem exec_memWrite_acked : exec (.memWrite a p) s = .next (s.acked.goOn 0x16 [.write a p]).finish :=
  runHandler_ack s 0x16 [Config.ack, 0x01] [.write a p] hfit hp

theorem exec_memWrite_invalid (h : validate s.cfg a = false) :
    exec (.memWrite a p) s = .next (s.replied [0xAB, 0x01, s.cfg.stAddrInvalid]) := by
  rw [exec_memWrite_acked hfit hp, finish_write_invalid (s := s.acked) _ _ h, finish_goOn_nil, acked_send_toIdle]
  rfl

theorem exec_memWrite_past (h : validate s.cfg a = true) (hcap : s.cfg.bufCap ≤ 6 + p.length) :
    exec (.memWrite a p) s = .next (s.acked.raise .bufOob) := by
  rw [exec_memWrite_acked hfit hp, finish_write_past (s := s.acked) _ _ h hcap]

theorem exec_memWrite_program (h : validate s.cfg a = true) (hcap : 6 + p.length < s.cfg.bufCap) :
    exec (.memWrite a p) s = .next ((s.acked.program a p).1.send (s.acked.program a p).2).toIdle := by
  rw [exec_memWrite_acked hfit hp, finish_write_valid (s := s.acked) _ _ h hcap, finish_progUnlock]

end

/-- Settles O37: the address check fails. -/
theorem memWriteInvalidAddress : Obligations.MemWriteInvalidAddress :=
  fun _ _ _ hfit hp h => exec_memWrite_invalid hfit hp h

/-- Settles O38: the fault is raised behind the ACK, and it is the first one recorded. -/
theorem memWritePayloadPastBuffer : Obligations.MemWritePayloadPastBuffer := by
  intro s a p hfit hfault hp h hcap
  have hnone : s.acked.fault = none := hfault
  rw [exec_memWrite_past hfit hp h hcap, State.raise, hnone, State.acked_trace, List.append_assoc]
  rfl

/-- Settles O39: PROGRAM runs behind the ACK. -/
theorem memWriteRunsProgram : Obligations.MemWriteRunsProgram :=
  fun _ _ _ hfit hp h hcap => ⟨_, rfl, exec_memWrite_program hfit hp h hcap⟩

/-- Settles O40: PROGRAM by its failed unlock. -/
theorem memWriteUnlockFails : Obligations.MemWriteUnlockFails := by
  intro s a p hfit hp h hcap hu
  have hu' : s.acked.unlockAnswer = .err := hu
  rw [exec_memWrite_program hfit hp h hcap, program_unlock_err (by simp [hu'])]
  simp only [State.flUnlock, State.send, State.emit, hu', State.acked_trace, List.append_assoc]
  rfl

/-- Settles O41: PROGRAM with every byte programmed. -/
theorem memWriteProgramsEveryByte : Obligations.MemWriteProgramsEveryByte := by
  intro s a p hfit hp h hcap hu hprog
  have hu' : s.acked.unlockAnswer = .ok := hu
  refine ⟨_, _, progEvents a p, ?_, rfl, rfl, progEvents_length a p, progEvents_get a p⟩
  rw [exec_memWrite_program hfit hp h hcap, program_done hu' (programBytes_ok s.acked.flUnlock a p hprog)]
  simp only [State.flUnlock, State.flLock, State.send, State.emit, hu', State.acked_trace, List.append_assoc]
  rw [show s.draws + 2 + p.length = s.draws + 1 + p.length + 1 by omega]
  rfl

/-- Settles O42: PROGRAM with a byte that fails. -/
theorem memWriteByteFails : Obligations.MemWriteByteFails := by
  intro s a pre b post hfit hp h hcap hu hpre hb
  have hu' : s.acked.unlockAnswer = .ok := hu
  refine ⟨_, _, ?_, rfl, rfl⟩
  rw [exec_memWrite_program hfit hp h hcap,
    program_stopped hu' (programBytes_stops (s := s.acked.flUnlock) b post hpre hb)]
  simp only [State.flUnlock, State.flLock, State.send, State.emit, hu', State.acked_trace, List.append_assoc]
  rw [show s.draws + 3 + pre.length = s.draws + 1 + pre.length + 1 + 1 by omega,
    show s.draws + 2 + pre.length = s.draws + 1 + pre.length + 1 by omega]
  rfl

end Sys2Proof.Machine
end

section
/-! PROOF. Who touches the flash: every move of the engine but FlashErase and MemWrite behind their checks leaves it alone, and
these two unlock and lock it once each. -/

namespace Sys2Proof.Machine

/-! ### Events that are no flash requests -/

theorem Event.not_flash {e : Event} (h : e.isFlash = false) :
    e.isUnlock = false ∧ e.isLock = false ∧ e.isGoodProg = false := by
  cases e with
  | flUnlock | flErase | flProg | flLock => cases h
  | _ => exact ⟨rfl, rfl, rfl⟩

theorem Event.of_isProg {e : Event} (h : e.isProg = true) :
    e.isUnlock = false ∧ e.isLock = false ∧ e.inScope = true := by
  cases e with
  | flProg => exact ⟨rfl, rfl, rfl⟩
  | _ => cases h

/-- No flash request is among the events. -/
def quiet (evs : List Event) : Bool :=
  evs.all fun e => !e.isFlash

theorem quiet_iff {evs : List Event} : quiet evs = true ↔ ∀ e ∈ evs, e.isFlash = false := by
  simp [quiet]

@[simp] theorem quiet_append (evs evs' : List Event) :
    quiet (evs ++ evs') = true ↔ quiet evs = true ∧ quiet evs' = true := by
  simp [quiet]

theorem quiet_noUnlockLock {evs : List Event} (h : quiet evs = true) :
    evs.all (fun e => !e.isUnlock && !e.isLock) = true := by
  refine List.all_eq_true.mpr fun e he => ?_
  obtain ⟨hunlock, hlock, -⟩ := Event.not_flash (quiet_iff.mp h e he)
  rw [hunlock, hlock]
  rfl

theorem progs_noUnlockLock {progs : List Event} (h : progs.all Event.isProg = true) :
    progs.all (fun e => !e.isUnlock && !e.isLock) = true := by
  refine List.all_eq_true.mpr fun e he => ?_
  obtain ⟨hunlock, hlock, -⟩ := Event.of_isProg (List.all_eq_true.mp h e he)
  rw [hunlock, hlock]
  rfl

theorem progs_inScope {progs : List Event} (h : progs.all Event.isProg = true) : progs.all Event.inScope = true :=
  List.all_eq_true.mpr fun e he => (Event.of_isProg (List.all_eq_true.mp h e he)).2.2

theorem quiet_noGoodProg {evs : List Event} (h : quiet evs = true) : evs.countP Event.isGoodProg = 0 :=
  List.countP_eq_zero.mpr fun e he => by simp [(Event.not_flash (quiet_iff.mp h e he)).2.2]

theorem quiet_gateEvents (s : State) : quiet s.gateEvents = true := by
  refine quiet_iff.mpr fun e he => ?_
  obtain ⟨w, v, rfl⟩ | rfl := gateEvents_mem he <;> rfl

theorem quiet_sends (bs : List Byte) : quiet (bs.map Event.tx) = true := by
  simp [quiet, Event.isFlash]

/-- The events of a gate that passed and of the ACK `TX(0xAB, 0x01)` (R160, R170). -/
def State.ackEvents (s : State) : List Event :=
  s.gateEvents ++ [.tx 0xAB, .tx 0x01]

theorem acked_trace_ackEvents (s : State) : s.acked.trace = s.trace ++ s.ackEvents :=
  List.append_assoc _ _ _

/-- The gate and the ACK request nothing of the flash. -/
theorem quiet_ackEvents (s : State) : quiet s.ackEvents = true :=
  (quiet_append _ _).mpr ⟨quiet_gateEvents s, rfl⟩

/-! ### Moves that leave the flash alone -/

/-- From `s` to `t` no flash request has been issued, and the scope bit is as it was. -/
def FlashUntouched (s t : State) : Prop :=
  t.flOpen = s.flOpen ∧ ∃ evs, t.trace = s.trace ++ evs ∧ quiet evs = true

theorem FlashUntouched.trans {s t u : State} (h : FlashUntouched s t) (h' : FlashUntouched t u) : FlashUntouched s u := by
  obtain ⟨hopen, evs, htrace, hevs⟩ := h
  obtain ⟨hopen', evs', htrace', hevs'⟩ := h'
  exact ⟨hopen'.trans hopen, evs ++ evs', by rw [htrace', htrace, List.append_assoc], (quiet_append _ _).mpr ⟨hevs, hevs'⟩⟩

theorem flashUntouched_silent {s t : State} (hopen : t.flOpen = s.flOpen) (htrace : t.trace = s.trace) :
    FlashUntouched s t :=
  ⟨hopen, [], by rw [htrace, List.append_nil], rfl⟩

theorem flashUntouched_gated (s : State) : FlashUntouched s s.gated :=
  ⟨rfl, _, rfl, quiet_gateEvents s⟩

theorem flashUntouched_sent (s : State) (bs : List Byte) : FlashUntouched s (s.sent bs).toIdle :=
  ⟨rfl, _, rfl, quiet_sends bs⟩

theorem flashUntouched_replied (s : State) (bs : List Byte) : FlashUntouched s (s.replied bs) :=
  (flashUntouched_gated s).trans (flashUntouched_sent s.gated bs)

theorem flashUntouched_acked (s : State) : FlashUntouched s s.acked :=
  (flashUntouched_gated s).trans (flashUntouched_sent s.gated [Config.ack, 0x01])

theorem flashUntouched_nacked (s : State) : FlashUntouched s s.nacked := by
  unfold State.nacked
  split
  · exact flashUntouched_sent s [Config.nack]
  · exact flashUntouched_replied s [Config.nack]

/-- GoToAddr's check, passed or not (R203, R205). -/
theorem finish_goTo_flashUntouched (s : State) (c : Byte) (a : Word) : FlashUntouched s (s.goOn c [.goTo a]).finish := by
  cases h : validate s.cfg a with
  | true =>
    rw [finish_goTo_valid c [] h]
    exact ⟨rfl, _, List.append_assoc _ _ _, rfl⟩
  | false =>
    rw [finish_goTo_invalid c [] h, finish_goOn_nil]
    exact ⟨rfl, _, rfl, rfl⟩

/-- OPT_READ and the level byte (R231). -/
theorem finish_readOpt (s : State) (c : Byte) :
    (s.goOn c [.readOpt]).finish = (s.optRead.sent [s.optAnswer]).toIdle := by
  rw [finish_goOn_cons]
  exact finish_sends_last s.optRead c [s.optAnswer]

/-! ### Handlers -/

/-- The commands that go on to flash requests once their gate has passed: an erase or a write whose checks pass (R161,
R170). -/
def RunsFlash (cfg : Cfg) : Instr → Prop
  | .flashErase ps pc => ∃ e, eraseCfg? cfg ps pc = some e
  | .memWrite a p => validate cfg a = true ∧ 6 + p.length < cfg.bufCap
  | _ => False

/-- A handler whose gate passes leaves the flash alone unless it is one of these commands. -/
theorem exec_pass_flashUntouched {i : Instr} {s t : State} (hfit : s.frameFits) (hp : s.gatePasses = true)
    (h : exec i s = .next t) : FlashUntouched s t ∨ RunsFlash s.cfg i := by
  cases i with
  | flashErase ps pc =>
    cases he : eraseCfg? s.cfg ps pc with
    | none =>
      cases h.symm.trans (exec_flashErase_invalid hfit hp he)
      exact .inl (flashUntouched_replied s _)
    | some e => exact .inr ⟨e, he⟩
  | memWrite a p =>
    cases hv : validate s.cfg a with
    | false =>
      cases h.symm.trans (exec_memWrite_invalid hfit hp hv)
      exact .inl (flashUntouched_replied s _)
    | true =>
      by_cases hcap : s.cfg.bufCap ≤ 6 + p.length
      · cases h.symm.trans (exec_memWrite_past hfit hp hv hcap)
        exact .inl ((flashUntouched_acked s).trans ⟨rfl, _, rfl, rfl⟩)
      · exact .inr ⟨hv, Nat.lt_of_not_le hcap⟩
  | goToAddr a =>
    cases h.symm.trans (runHandler_ack s 0x14 [Config.ack, 0x01] [.goTo a] hfit hp)
    exact .inl ((flashUntouched_acked s).trans (finish_goTo_flashUntouched s.acked 0x14 a))
  | getChipId =>
    cases h.symm.trans (runHandler_pass s 0x12 [.readId] hfit hp)
    rw [finish_readId]
    have hread : FlashUntouched s.gated s.gated.idRead := ⟨rfl, _, rfl, rfl⟩
    exact .inl ((flashUntouched_gated s).trans (hread.trans (flashUntouched_sent _ _)))
  | enRWProtect =>
    cases h.symm.trans (runHandler_ack s 0x17 [Config.ack, 0x01] [.readOpt] hfit hp)
    rw [finish_readOpt]
    have hread : FlashUntouched s.acked s.acked.optRead := ⟨rfl, _, rfl, rfl⟩
    exact .inl ((flashUntouched_acked s).trans (hread.trans (flashUntouched_sent _ _)))
  | _ =>
    cases h.symm.trans (runHandler_sends s _ _ hfit hp)
    exact .inl (flashUntouched_replied s _)

/-- Which handlers touch the flash (R179). -/
theorem exec_flashUntouched {i : Instr} {s t : State} (hfit : s.frameFits) (h : exec i s = .next t) :
    FlashUntouched s t ∨ (s.gatePasses = true ∧ RunsFlash s.cfg i) := by
  cases hp : s.gatePasses with
  | true => exact (exec_pass_flashUntouched hfit hp h).imp_right fun hi => ⟨rfl, hi⟩
  | false =>
    obtain ⟨_, -, hfail, -⟩ := everyHandlerGatesFirst i s hfit
    cases h.symm.trans (hfail hp)
    exact .inl (flashUntouched_nacked s)

/-- What a handler does behind the ACK comes after the gate's events and the ACK. -/
theorem finish_acked_trace (s : State) (c : Byte) (l : List Act) :
    ∃ tail, (s.acked.goOn c l).finish.trace = s.trace ++ (s.ackEvents ++ tail) := by
  obtain ⟨-, -, -, tail, htrace⟩ := finish_frame (s.acked.goOn c l)
  exact ⟨tail, by rw [htrace, State.goOn_trace, acked_trace_ackEvents, List.append_assoc]⟩

/-- The events of a command that goes on to flash requests start with the gate's and the ACK. -/
theorem exec_runsFlash_trace {i : Instr} {s t : State} (hfit : s.frameFits) (hp : s.gatePasses = true)
    (hi : RunsFlash s.cfg i) (h : exec i s = .next t) :
    ∃ tail, t.trace = s.trace ++ (s.ackEvents ++ tail) := by
  cases i with
  | flashErase ps pc =>
    cases h.symm.trans (exec_flashErase_acked hfit hp)
    exact finish_acked_trace s _ _
  | memWrite a p =>
    cases h.symm.trans (exec_memWrite_acked hfit hp)
    exact finish_acked_trace s _ _
  | _ => cases hi

/-! ### Steps -/

theorem receiveFailed_flashUntouched (s : State) (n : Nat) : FlashUntouched s (s.receiveFailed n) :=
  ⟨rfl, _, List.append_assoc _ _ _, rfl⟩

theorem unknownCode_flashUntouched (s : State) : FlashUntouched s s.unknownCode := by
  unfold State.unknownCode
  split
  · exact flashUntouched_silent rfl rfl
  · exact flashUntouched_sent s [Config.nack]

/-- Outside a handler a step runs the handler of a decoded frame, or it leaves the flash alone. -/
theorem step_flashUntouched {s t : State} (hx : ∀ c l, s.fsm ≠ .exec c l) (h : step s = .next t) :
    FlashUntouched s t ∨ (s.fsm = .dispatch ∧ ∃ i, s.instr = .ok i ∧ exec i s = .next t) := by
  obtain ⟨u, hu, rfl⟩ := step_tick_finish h
  cases (tick_moves hu).2.2 with
  | cycleStart hf =>
    rw [finish_of_not_exec (s := s.cycleStart) nofun]
    exact .inl (flashUntouched_silent rfl rfl)
  | length hf =>
    rw [finish_of_not_exec (receiveLength_not_exec hf)]
    obtain ⟨b, rest, e⟩ | ⟨rest, e⟩ | e := receiveLength_cases s
    · rw [e]; exact .inl ⟨rfl, _, rfl, rfl⟩
    · rw [e]; exact .inl (receiveFailed_flashUntouched { s with rx := rest } 1)
    · rw [e]; exact .inl (flashUntouched_silent rfl rfl)
  | body hf =>
    rw [finish_of_not_exec (receiveBody_not_exec hf)]
    obtain ⟨-, e⟩ | ⟨-, ⟨_, _, _, bs, -, e⟩ | ⟨rx, oracle, draws, bs, -, e⟩ | e⟩ := receiveBody_cases s
    · rw [e]; exact .inl ⟨rfl, _, rfl, rfl⟩
    · rw [e]; exact .inl ⟨rfl, _, rfl, rfl⟩
    · rw [e]
      exact .inl (receiveFailed_flashUntouched
        { s with rx := rx, oracle := oracle, draws := draws, buf := s.buf.writeList 1 bs } s.frameLen)
    · rw [e]; exact .inl (flashUntouched_silent rfl rfl)
  | @enter hf i hi => exact .inr ⟨hf, i, hi, exec_eq i s⟩
  | unknown hf he =>
    rw [finish_of_not_exec (by simp)]
    exact .inl (unknownCode_flashUntouched s)
  | advance hf => exact absurd hf (hx _ _)

/-- Settles O44: only a command that goes on to flash requests can have issued the one that is given. -/
theorem flashRequestsOnlyAfterGateAndAck : Obligations.FlashRequestsOnlyAfterGateAndAck := by
  intro s t evs e hfit hx h htrace hmem hflash
  have htouched : ¬ FlashUntouched s t := by
    rintro ⟨-, evs', htrace', hquiet⟩
    obtain rfl : evs = evs' := List.append_cancel_left (htrace.symm.trans htrace')
    simp [quiet_iff.mp hquiet e hmem] at hflash
  obtain ⟨hf, i, hi, hexec⟩ := (step_flashUntouched hx h).resolve_left htouched
  obtain ⟨hp, hruns⟩ := (exec_flashUntouched hfit hexec).resolve_left htouched
  obtain ⟨tail, htail⟩ := exec_runsFlash_trace hfit hp hruns hexec
  refine ⟨hf, hp, ⟨tail, List.append_cancel_left (htrace.symm.trans htail)⟩, ?_⟩
  cases i with
  | flashErase ps pc => exact .inl ⟨ps, pc, hi⟩
  | memWrite a p => exact .inr ⟨a, p, hi, hruns.1⟩
  | _ => cases hruns

/-! ### Unlock and lock -/

/-- What PROGRAM requests: the unlock alone where it failed; where it succeeded, FL_PROGs and one lock after it, and the
status is ST_WRITE_OK exactly if every byte and the lock were answered OK (R172 to R175). -/
theorem program_outcome (s : State) (a : Word) (p : List Byte) :
    (s.program a p).1.flOpen = false ∧
      (((s.program a p).1.trace = s.trace ++ [Event.flUnlock .err] ∧ (s.program a p).2 = s.cfg.stWriteFail) ∨
        ∃ (progs : List Event) (l : Status),
          (s.program a p).1.trace = s.trace ++ ([Event.flUnlock .ok] ++ progs ++ [Event.flLock l]) ∧
          progs.all Event.isProg = true ∧
          (s.program a p).2 =
            if progs.countP Event.isGoodProg = p.length ∧ l = .ok then s.cfg.stWriteOk else s.cfg.stWriteFail) := by
  cases hu : s.unlockAnswer with
  | err =>
    rw [program_unlock_err (by simp [hu])]
    exact ⟨rfl, .inl ⟨hu ▸ rfl, rfl⟩⟩
  | ok =>
    obtain ⟨progs, htrace, hprogs, hcount⟩ := programBytes_events s.flUnlock a p
    rcases hb : s.flUnlock.programBytes a p with ⟨u, done⟩
    rw [hb] at htrace hcount
    have htrace' : u.flLock.trace = s.trace ++ ([Event.flUnlock .ok] ++ progs ++ [Event.flLock u.lockAnswer]) := by
      rw [State.flLock_trace, htrace, State.flUnlock_trace, hu]
      simp only [List.append_assoc]
    cases done with
    | true =>
      rw [program_done hu hb]
      refine ⟨rfl, .inr ⟨progs, u.lockAnswer, htrace', hprogs, ?_⟩⟩
      simp only [hcount.mp rfl, true_and]
      rfl
    | false =>
      have hfew : ¬ progs.countP Event.isGoodProg = p.length := fun hall => nomatch hcount.mpr hall
      rw [program_stopped hu hb]
      exact ⟨rfl, .inr ⟨progs, u.lockAnswer, htrace', hprogs, (if_neg fun h => hfew h.1).symm⟩⟩

/-- A MemWrite that goes on to PROGRAM issues the gate's events, the ACK, PROGRAM's requests and the status byte. -/
theorem exec_memWrite_trace {s : State} {a : Word} {p : List Byte} {evs : List Event} (hfit : s.frameFits)
    (hp : s.gatePasses = true) (h : RunsFlash s.cfg (.memWrite a p))
    (hevs : (s.acked.program a p).1.trace = s.acked.trace ++ evs) :
    ∃ t, exec (.memWrite a p) s = .next t ∧ t.flOpen = (s.acked.program a p).1.flOpen ∧
      t.trace = s.trace ++ (s.ackEvents ++ evs) ++ [.tx (s.acked.program a p).2] := by
  refine ⟨_, exec_memWrite_program hfit hp h.1 h.2, rfl, ?_⟩
  rw [State.toIdle_trace, State.send_trace, hevs, acked_trace_ackEvents, List.append_assoc s.trace]

/-- R8(c): the two write statuses are distinct. -/
theorem wf_writeStatus {cfg : Cfg} (h : cfg.wf = true) : cfg.stWriteOk ≠ cfg.stWriteFail := by
  simp only [Cfg.wf, Cfg.codesOk, Bool.and_eq_true, decide_eq_true_eq] at h
  obtain ⟨⟨-, ⟨⟨⟨-, hwrite⟩, -⟩, -⟩, -⟩, -⟩ := h
  exact hwrite

/-- Behind events that are no flash requests, the unlock, the lock and the good bytes of a PROGRAM are read off its parts. -/
theorem program_events_good {pre progs : List Event} (l : Status) (hpre : quiet pre = true)
    (hprogs : progs.all Event.isProg = true) :
    Event.flUnlock .ok ∈ pre ++ ([Event.flUnlock .ok] ++ progs ++ [Event.flLock l]) ∧
      (Event.flLock .ok ∈ pre ++ ([Event.flUnlock .ok] ++ progs ++ [Event.flLock l]) ↔ l = .ok) ∧
      (pre ++ ([Event.flUnlock .ok] ++ progs ++ [Event.flLock l])).countP Event.isGoodProg =
        progs.countP Event.isGoodProg := by
  have hpre' : Event.flLock .ok ∉ pre := fun h => nomatch quiet_iff.mp hpre _ h
  have hprogs' : Event.flLock .ok ∉ progs := fun h => nomatch List.all_eq_true.mp hprogs _ h
  refine ⟨by simp, by simp [hpre', hprogs', eq_comm], ?_⟩
  simp [List.countP_append, quiet_noGoodProg hpre, Event.isGoodProg]

/-- Settles O43: the outcome of PROGRAM, with the events before the status byte counted. -/
theorem writeStatusAllOrNothing : Obligations.WriteStatusAllOrNothing := by
  intro s a p hwf hfit hp h hcap
  have hquiet := quiet_ackEvents s
  have hne := wf_writeStatus hwf
  obtain ⟨-, ⟨hevs, hst⟩ | ⟨progs, l, hevs, hprogs, hst⟩⟩ := program_outcome s.acked a p
  · obtain ⟨t, hexec, -, htrace⟩ := exec_memWrite_trace hfit hp ⟨h, hcap⟩ hevs
    refine ⟨t, _, _, hexec, htrace, .inr hst, iff_of_false (hst ▸ hne.symm) fun hgood => ?_⟩
    have hack : Event.flUnlock .ok ∉ s.ackEvents := fun h => nomatch quiet_iff.mp hquiet _ h
    exact (List.mem_append.mp hgood.1).elim hack (by simp)
  · obtain ⟨t, hexec, -, htrace⟩ := exec_memWrite_trace hfit hp ⟨h, hcap⟩ hevs
    obtain ⟨hunlock, hlock, hcount⟩ := program_events_good l hquiet hprogs
    refine ⟨t, _, _, hexec, htrace, hst ▸ ite_eq_or_eq _ _ _, ?_⟩
    rw [hst, State.acked_cfg, hlock, hcount]
    by_cases hall : progs.countP Event.isGoodProg = p.length ∧ l = .ok
    · rw [if_pos hall]
      exact iff_of_true rfl ⟨hunlock, hall.2, hall.1⟩
    · rw [if_neg hall]
      exact iff_of_false hne.symm fun hgood => hall ⟨hgood.2.2, hgood.2.1⟩

/-- Settles O45: a handler leaves the flash alone, erases between an unlock and a lock, or runs PROGRAM. -/
theorem unlockIsLockedOnce : Obligations.UnlockIsLockedOnce := by
  intro i s hfit hopen
  obtain ⟨t, hexec, -⟩ := handlersEnd i s
  have hack := quiet_noUnlockLock (quiet_ackEvents s)
  obtain ⟨hopen', evs, htrace, hquiet⟩ | ⟨hp, hruns⟩ := exec_flashUntouched hfit hexec
  · exact ⟨t, evs, hexec, htrace, hopen'.trans hopen, .inl (quiet_noUnlockLock hquiet)⟩
  · cases i with
    | flashErase ps pc =>
      obtain ⟨e, he⟩ := hruns
      obtain ⟨_, u, st, err, l, hexec, rfl, -⟩ := exec_flashErase_valid hfit hp he
      refine ⟨_, _, hexec, List.append_assoc _ _ _, rfl, .inr (.inl
        ⟨s.ackEvents, u, [.flErase e st err], l, eraseStatus s.cfg err, ?_, ?_, rfl, nofun⟩)⟩
      · simp only [State.ackEvents, List.append_assoc, List.cons_append, List.nil_append]
      · rw [List.all_append, hack]
        rfl
    | memWrite a p =>
      obtain ⟨hclosed, ⟨hevs, -⟩ | ⟨progs, l, hevs, hprogs, -⟩⟩ := program_outcome s.acked a p
      · obtain ⟨t, hexec, hopen', htrace⟩ := exec_memWrite_trace hfit hp hruns hevs
        exact ⟨t, _, hexec, htrace.trans (List.append_assoc _ _ _), hopen'.trans hclosed, .inr (.inr
          ⟨s.ackEvents, _, a, p, rfl, List.append_assoc _ _ _, quiet_ackEvents s⟩)⟩
      · obtain ⟨t, hexec, hopen', htrace⟩ := exec_memWrite_trace hfit hp hruns hevs
        refine ⟨t, _, hexec, htrace.trans (List.append_assoc _ _ _), hopen'.trans hclosed, .inr (.inl
          ⟨s.ackEvents, .ok, progs, l, (s.acked.program a p).2, ?_, ?_, progs_inScope hprogs, fun _ => rfl⟩)⟩
        · simp only [List.append_assoc, List.cons_append, List.nil_append]
        · rw [List.all_append, hack, progs_noUnlockLock hprogs]
          rfl
    | _ => cases hruns

end Sys2Proof.Machine
end

section
/-! PROOF. The address validator and its windows, GoToAddr on both answers of the validator, and the two control states in which
a run has ended. -/

namespace Sys2Proof.Machine

/-! ### GoToAddr -/

section
variable {s : State} {a : Word} (hfit : s.frameFits) (hp : s.gatePasses = true)
include hfit hp

theorem exec_goToAddr_acked : exec (.goToAddr a) s = .next (s.acked.goOn 0x14 [.goTo a]).finish :=
  runHandler_ack s 0x14 [Config.ack, 0x01] [.goTo a] hfit hp

/-- The validity byte, then the handoff, behind which nothing runs (R203, R206). -/
theorem exec_goToAddr_valid (h : validate s.cfg a = true) :
    exec (.goToAddr a) s = .next ((s.acked.send s.cfg.stAddrValid).handOff (a + 1)) := by
  rw [exec_goToAddr_acked hfit hp, finish_goTo_valid (s := s.acked) _ _ h, State.acked_cfg]

/-- The status byte is the only answer after the ACK (R205). -/
theorem exec_goToAddr_invalid (h : validate s.cfg a = false) :
    exec (.goToAddr a) s = .next (s.replied [0xAB, 0x01, s.cfg.stAddrInvalid]) := by
  rw [exec_goToAddr_acked hfit hp, finish_goTo_invalid (s := s.acked) _ _ h, finish_goOn_nil, acked_send_toIdle,
    State.acked_cfg]

end

/-- The handoff target, an addition on words, is the addition mod 2^32 of the spec (D24). -/
theorem add_one_eq_ofNat (a : Word) : a + 1 = BitVec.ofNat 32 (a.toNat + 1) := by
  rw [BitVec.ofNat_add, BitVec.ofNat_toNat, BitVec.setWidth_eq]
  rfl

/-- Settles O30: the handoff behind the ACK and the validity byte. -/
theorem goToAddrHandsOff : Obligations.GoToAddrHandsOff := by
  intro s a hfit hp h
  rw [exec_goToAddr_valid hfit hp h, add_one_eq_ofNat]
  simp only [State.handOff, State.send, State.emit, State.acked_trace, List.append_assoc]
  rfl

/-- Settles O31: the handler only replies. -/
theorem goToAddrInvalid : Obligations.GoToAddrInvalid :=
  fun _ _ hfit hp h => exec_goToAddr_invalid hfit hp h

/-! ### The validator -/

/-- The validator's answer, in the order of words, which is that of unsigned numbers (R200). -/
theorem validate_iff (cfg : Cfg) (a : Word) :
    validate cfg a = true ↔
      (cfg.sramBase ≤ a ∧ a ≤ cfg.sramEnd) ∨ (cfg.flashBase ≤ a ∧ a ≤ cfg.flashEnd) := by
  simp only [validate, Bool.or_eq_true, Bool.and_eq_true, decide_eq_true_eq]

/-- Settles O28: the order of words is that of their unsigned numbers. -/
theorem validateIsWindowMembership : Obligations.ValidateIsWindowMembership := by
  intro cfg a
  simp only [validate_iff, BitVec.le_def]

/-- No window of an allowed configuration is empty (R8(a)). -/
theorem wf_windows {cfg : Cfg} (h : cfg.wf = true) : cfg.sramBase ≤ cfg.sramEnd ∧ cfg.flashBase ≤ cfg.flashEnd := by
  simp only [Cfg.wf, Cfg.windowsOk, Bool.and_eq_true, decide_eq_true_eq] at h
  obtain ⟨⟨⟨hwindows, -⟩, -⟩, -⟩ := h
  exact hwindows

/-- The edges of a window `[b, e]` where an address is valid exactly when it lies in this window or in another one,
`[b', e']` (R202). -/
theorem validate_edges {cfg : Cfg} {b e b' e' : Word} (hbe : b ≤ e)
    (hv : ∀ a, validate cfg a = true ↔ (b ≤ a ∧ a ≤ e) ∨ (b' ≤ a ∧ a ≤ e')) :
    validate cfg b = true ∧ validate cfg e = true ∧
      (b ≠ 0 → ¬ (b' ≤ b - 1 ∧ b - 1 ≤ e') → validate cfg (b - 1) = false) ∧
      (e ≠ 0xFFFFFFFF → ¬ (b' ≤ e + 1 ∧ e + 1 ≤ e') → validate cfg (e + 1) = false) := by
  refine ⟨(hv b).mpr (.inl ⟨BitVec.le_refl b, hbe⟩), (hv e).mpr (.inl ⟨hbe, BitVec.le_refl e⟩), fun hb hother => ?_,
    fun he hother => ?_⟩
  · have hbelow : ¬ b ≤ b - 1 := by bv_omega
    exact Bool.eq_false_iff.mpr fun h => ((hv _).mp h).elim (fun hin => hbelow hin.1) hother
  · have habove : ¬ e + 1 ≤ e := by bv_omega
    exact Bool.eq_false_iff.mpr fun h => ((hv _).mp h).elim (fun hin => habove hin.2) hother

/-- Settles O29: each window in its turn, the other one being the second. -/
theorem windowBoundaries : Obligations.WindowBoundaries := by
  intro cfg hwf w hw
  obtain ⟨hsram, hflash⟩ := wf_windows hwf
  simp only [List.mem_cons, List.not_mem_nil, or_false] at hw
  obtain rfl | rfl := hw
  · exact validate_edges hsram (validate_iff cfg)
  · exact validate_edges hflash fun a => (validate_iff cfg a).trans or_comm

/-! ### The end of a run -/

/-- After a recorded fault there is no tick (R265). -/
theorem tick_fault {s : State} {r : Fault} (hwf : s.cfg.wf = true) (hfault : s.fault = some r) : tick s = .fault r := by
  simp only [tick, hwf, hfault, if_true]

section
variable {s : State} (hwf : s.cfg.wf = true) (hfault : s.fault = none) (hf : s.fsm = .handoff)
include hwf hfault hf

/-- After the handoff there is no step (R206). -/
theorem step_handoff : step s = .refused .ended := by
  simp only [step, hwf, hfault, hf, if_true]

/-- After the handoff there is no tick (R206). -/
theorem tick_handoff : tick s = .refused .ended := by
  simp only [tick, hwf, hfault, hf, if_true]

end

/-- Settles O32: both grains at both ends of a run. -/
theorem terminalStates : Obligations.TerminalStates :=
  fun _ hwf => ⟨fun hf hfault => ⟨step_handoff hwf hfault hf, tick_handoff hwf hfault hf⟩,
    fun _ hfault => ⟨step_fault hwf hfault, tick_fault hwf hfault⟩⟩

end Sys2Proof.Machine
end

section
/-! PROOF. The protection and stub commands: the handlers that only send after their gate, and EnRWProtect, which sends the option
byte it reads. -/

namespace Sys2Proof.Machine

/-! ### Handlers that only send -/

/-- A handler that is a gate and then sends, on both answers of the gate. -/
theorem runHandler_onlySends {s : State} (hfit : s.frameFits) (c : Byte) (bs : List Byte) :
    (s.gatePasses = true → runHandler c (.gate :: sends bs) s = .next (s.replied bs)) ∧
      (s.gatePasses = false → runHandler c (.gate :: sends bs) s = .next s.nacked) :=
  ⟨runHandler_sends s c bs hfit, runHandler_fail s c _ hfit⟩

/-- Settles O25: each stub only sends, the ACK and then the byte configured for it. -/
theorem stubsReply : Obligations.StubsReply := by
  intro s hfit p hp
  simp only [List.mem_cons, List.not_mem_nil, or_false] at hp
  obtain rfl | rfl | rfl | rfl := hp
  · exact runHandler_onlySends hfit 0x13 [0xAB, 0x01, s.cfg.stubGetRdpStatus]
  · exact runHandler_onlySends hfit 0x18 [0xAB, 0x01, s.cfg.stubMemRead]
  · exact runHandler_onlySends hfit 0x19 [0xAB, 0x01, s.cfg.stubReadSectorStatus]
  · exact runHandler_onlySends hfit 0x20 [0xAB, 0x01, s.cfg.stubOtpRead]

/-- Settles O27: the handler only sends the ACK. -/
theorem changeRopLevelAcks : Obligations.ChangeRopLevelAcks :=
  fun _ hfit => runHandler_onlySends hfit 0x21 [0xAB, 0x01]

/-! ### EnRWProtect -/

/-- Behind the gate and the ACK, the handler reads the option bytes and sends the answer (R231). -/
theorem exec_enRWProtect_pass {s : State} (hfit : s.frameFits) (hp : s.gatePasses = true) :
    exec .enRWProtect s = .next (s.acked.optRead.sent [s.acked.optAnswer]).toIdle := by
  rw [← finish_readOpt s.acked 0x17]
  exact runHandler_ack s 0x17 [Config.ack, 0x01] [.readOpt] hfit hp

/-- Settles O26: what is sent after the ACK is the answer of the read, which neither the gate nor the ACK touches. -/
theorem enRWProtectReports : Obligations.EnRWProtectReports := by
  refine fun s hfit => ⟨fun hp => ?_, runHandler_fail s 0x17 _ hfit⟩
  rw [exec_enRWProtect_pass hfit hp]
  simp only [State.sent, State.optRead_trace, State.acked_trace, List.append_assoc]
  rfl

end Sys2Proof.Machine
end

section
/-! PROOF. The open flash scope: which positions inside a handler have fl_open set, and the one request a tick issues there. -/

namespace Sys2Proof.Machine

/-- The flash requests the handler of `code` issues while its scope is open (R166, R173 to R175, R296). -/
def Event.ownRequest (code : Byte) (e : Event) : Prop :=
  (code = 0x15 ∧ (e.isErase = true ∨ e.isLock = true)) ∨ (code = 0x16 ∧ (e.isProg = true ∨ e.isLock = true))

/-- Under the invariant an open scope has a handler in it, whose next action is its own and performed with the scope open
(R26, R180). -/
theorem inv_scope_open {s : State} (hs : s.Inv) (hopen : s.flOpen = true) :
    ∃ c a rest, s.fsm = .exec c (a :: rest) ∧ a.inScope = true ∧ a.allowedIn s.cfg c = true := by
  have hscope : s.fsm.scopeOpen = true := hs.scope.symm.trans hopen
  cases hf : s.fsm with
  | exec c l =>
    rw [hf] at hscope
    cases l with
    | nil => cases hscope
    | cons a rest => exact ⟨c, a, rest, rfl, hscope, ((positionOk_cons _ _ _ _).mp (hs.position _ _ hf)).1⟩
  | _ =>
    rw [hf] at hscope
    cases hscope

/-- An action performed with the scope open issues exactly one event, a request of its handler (R166, R173 to R175). -/
theorem perform_inScope {a : Act} {c : Byte} (s : State) (rest : List Act) (hin : a.inScope = true)
    (hallow : a.allowedIn s.cfg c = true) :
    ∃ e : Event, (a.perform c rest s).trace = s.trace ++ [e] ∧ e.ownRequest c := by
  cases a with
  | eraseRun cfg => exact ⟨_, rfl, .inl ⟨of_decide_eq_true hallow, .inl rfl⟩⟩
  | eraseLock err => exact ⟨_, rfl, .inl ⟨of_decide_eq_true hallow, .inr rfl⟩⟩
  | progByte address b bs => exact ⟨_, rfl, .inr ⟨of_decide_eq_true hallow, .inl rfl⟩⟩
  | progLock | progAbort => exact ⟨_, rfl, .inr ⟨of_decide_eq_true hallow, .inr rfl⟩⟩
  | _ => cases hin

/-- Settles O46: the tick performs the action the open scope stands at, and its one event is a request of the handler. -/
theorem onlyFlashRequestsInsideScope : Obligations.OnlyFlashRequestsInsideScope := by
  intro s hs hopen
  obtain ⟨c, a, rest, hf, hin, hallow⟩ := inv_scope_open hs hopen
  obtain ⟨e, htrace, hown⟩ := perform_inScope s rest hin hallow
  have hfault : s.fault = none := by simpa [hf] using hs.fault
  exact ⟨c, a :: rest, s.advance, e, hf, tick_exec hs.cfg hfault hf, by rw [advance_cons hf, htrace], hown⟩

end Sys2Proof.Machine
end

section
/-! PROOF. The configuration's check, reset, and the fault record; the frames that a handler or the dispatch refuses with one
NACK; and the spec's fixed values of the decoder and of the default CRC. -/

namespace Sys2Proof.Machine

/-! ### The configuration -/

/-- R8's constraints, the windows compared as unsigned numbers. -/
theorem cfg_wf_iff (c : Cfg) :
    c.wf = true ↔ c.sramBase.toNat ≤ c.sramEnd.toNat ∧ c.flashBase.toNat ≤ c.flashEnd.toNat ∧
      1 ≤ c.maxPages ∧ c.maxPages ≤ 255 ∧
      c.stAddrValid ≠ c.stAddrInvalid ∧ c.stWriteOk ≠ c.stWriteFail ∧
      c.stEraseInvalid ≠ c.stEraseFail ∧ c.stEraseInvalid ≠ c.stEraseOk ∧ c.stEraseFail ≠ c.stEraseOk ∧
      7 ≤ c.bufCap := by
  simp only [Cfg.wf, Cfg.windowsOk, Cfg.pagesOk, Cfg.codesOk, Cfg.capOk, Bool.and_eq_true, decide_eq_true_eq,
    BitVec.le_def, and_assoc]

/-- A configuration that is not allowed is refused before anything runs (R8). -/
theorem badConfig_refused {s : State} (h : ¬ s.cfg.wf = true) :
    step s = .refused .badConfig ∧ tick s = .refused .badConfig :=
  ⟨if_neg h, if_neg h⟩

/-- Under an allowed configuration the only refusal of a step is that the run has ended (R8, R206). -/
theorem step_refused {s : State} {r : Refusal} (hwf : s.cfg.wf = true) (h : step s = .refused r) : r = .ended := by
  cases hfault : s.fault with
  | some f => cases (step_fault hwf hfault).symm.trans h
  | none =>
    cases hf : s.fsm with
    | dispatch =>
      cases hi : s.instr with
      | ok i => cases ((dispatch_known hwf hfault hf hi).1.trans (exec_eq i s)).symm.trans h
      | error e => simp [step, hwf, hfault, hf, hi] at h
    | handoff | fault =>
      simp only [step, hwf, hfault, hf, if_true, Host.Outcome.refused.injEq] at h
      exact h.symm
    | _ => simp [step, hwf, hfault, hf] at h

/-- Settles O60: the engine's check is R8's constraints. -/
theorem configurationChecked : Obligations.ConfigurationChecked := by
  intro s c ok
  have hok : s.cfg.wf = true ↔ ok := cfg_wf_iff s.cfg
  refine ⟨fun hbad => badConfig_refused (mt hok.mp hbad), fun hgood hstep => ?_⟩
  cases step_refused (hok.mpr hgood) hstep

/-! ### Reset -/

/-- Settles O57: the reset values, read off the definition. -/
theorem resetState : Obligations.ResetState :=
  ⟨fun _ => ⟨rfl, rfl, rfl, rfl, rfl⟩, Cfg.sample, rfl⟩

/-- A reset keeps the invariant: the free bytes it leaves fill the buffer and no more (R291). -/
theorem resetFrom_inv {s : State} (hwf : s.cfg.wf = true) : s.resetFrom.Inv := by
  have hlen : 0 + (freeBytes s.draws 0 s.cfg.bufCap).length ≤ s.cfg.bufCap := by
    rw [freeBytes_length, Nat.zero_add]
  exact (inv_outside_iff rfl).mpr
    ⟨hwf, ⟨Memory.ofBytes_wf _, Memory.writeList_within rfl hlen, trivial⟩, rfl, rfl, rfl⟩

/-- Settles O58: the register values are read off the definition, the invariant needs only the allowed configuration. -/
theorem resetAbandonsCommand : Obligations.ResetAbandonsCommand :=
  fun _ => ⟨rfl, rfl, rfl, rfl, rfl, rfl, fun hs => resetFrom_inv hs.cfg⟩

/-- Settles O59: the first step is the cycle start, which clears the buffer. -/
theorem resetBufferNeverObserved : Obligations.ResetBufferNeverObserved := by
  intro cfg m hwf
  have hreset : step (State.resetWith cfg) = .next (State.resetWith cfg).cycleStart := step_idle hwf rfl rfl
  have hany : step { State.resetWith cfg with buf := m } = .next (State.resetWith cfg).cycleStart :=
    step_idle hwf rfl rfl
  exact ⟨hany.trans hreset.symm, hreset⟩

/-! ### The fault record -/

/-- A raised fault is recorded where none was (R32). -/
theorem raise_records {s : State} (h : s.fault = none) (r : Fault) : (s.raise r).fault = some r := by
  rw [State.raise_fault, h, Option.getD_none]

/-- Settles O54: a tick changes the record only by raising a fault, and starts from none. -/
theorem faultRecordedOnce : Obligations.FaultRecordedOnce := by
  refine ⟨fun _ => rfl, fun s t h => ?_, fun s hs hne => ?_⟩
  · obtain ⟨-, hnone, hmove⟩ := tick_moves h
    refine ⟨hnone, ?_⟩
    obtain hkept | ⟨r, rfl⟩ := moves_raises hmove
    · exact .inl (hkept.trans hnone)
    · exact .inr ⟨r, raise_records hnone r, rfl, rfl⟩
  · obtain ⟨r, hr⟩ := Option.ne_none_iff_exists'.mp hne
    refine ⟨hs.fault.mp (by rw [hr]; rfl), fun t ht => ?_⟩
    cases (tick_fault hs.cfg hr).symm.trans ht

/-! ### Answered with one NACK -/

/-- Settles O20: the gate fails by its length check. -/
theorem shortFrameNacked : Obligations.ShortFrameNacked := by
  intro i s hfit hshort
  have hp : s.gatePasses = false := Bool.eq_false_iff.mpr fun hp =>
    Nat.not_le.mpr hshort ((gatePasses_iff s).mp hp).1
  obtain ⟨_, -, hfail, -⟩ := everyHandlerGatesFirst i s hfit
  rw [hfail hp, State.nacked, if_pos hshort]
  rfl

/-- Settles O3: under NACK the unknown-code rule is one NACK and the return. -/
theorem unknownCodeNacked : Obligations.UnknownCodeNacked := by
  intro s hwf hfault hf hpolicy h
  have hnack : s.unknownCode = (s.send 0xCD).toIdle := by simp only [State.unknownCode, hpolicy]
  rw [(dispatch_unknown hwf hfault hf h).1, hnack]
  rfl

/-! ### Fixed values -/

/-- Settles O6: five of the frames have a row of the opcode table, with their operands, and the sixth has none. -/
theorem specFramesDecode : Obligations.SpecFramesDecode :=
  ⟨decodeFrom_of_row (by decide), decodeFrom_of_row (by decide), decodeFrom_of_row (by decide),
    decodeFrom_of_row (by decide), decodeFrom_of_row (by decide), decodeFrom_unknown (by decide)⟩

/-- The shifts of the default CRC_STEP are one function iterated (R7). -/
theorem crcShifts_eq_iterate (n : Nat) (v : Word) : crcShifts n v = crcShift^[n] v := by
  induction n generalizing v with
  | zero => rfl
  | succ n ih => exact ih (crcShift v)

/-- One shift folds the polynomial in when bit 31 was set (R7). -/
theorem crcShift_eq :
    crcShift = fun v : Word => if v.getLsbD 31 then (v <<< 1) ^^^ 0x04C11DB7 else v <<< 1 := by
  funext v
  rw [crcShift, BitVec.msb_eq_getLsbD_last]
  rfl

/-- Settles O10: the general form by the iterated shift, the check values by running the default CRC_STEP on them. -/
theorem defaultCrcStep : Obligations.DefaultCrcStep := by
  refine ⟨fun acc w => ?_, by decide +kernel, by decide +kernel⟩
  rw [← crcShift_eq]
  exact crcShifts_eq_iterate 32 (acc ^^^ w)

end Sys2Proof.Machine
end
